-- ==== Sys2Proof/Word.lean ====
section
/-! DEFINITION. The word types of the core (spec 00_scope.md R5, R6, R8): the 64-bit stack cell, the 16-bit memory
cell (which is also one instruction), and the byte of the two streams. -/

namespace Sys2Proof

/-- A stack cell: the width of `T`, `R`, `IN`, `OUT`, `EIP` and of every element of `DS` and `RS` (R5 `XLEN`, R8). -/
abbrev StackCell := BitVec 64

/-- A memory cell, "one 16-bit memory unit", and an instruction word (R5 `CELL`, R60). -/
abbrev MemCell := BitVec 16

/-- A byte of the input or output stream (R18), and half a memory cell in a byte image (R46). -/
abbrev Byte := BitVec 8

end Sys2Proof
end

