-- ==== Sys2Proof/Syntax.lean ====
section
/-! DEFINITION. The instructions, one constructor per row of spec/opcode_table.json (30_encoding.md R60 to R80), and the selector
names of an ALU instruction. Codes and bit positions are Decode.lean's alone. -/

namespace Sys2Proof

/-- Input-mux selector: which value is `IN` (R65). -/
inductive InMux where
  /-- `N->IN` (R134) -/
  | n
  /-- `T->IN` (R135) -/
  | t
  /-- `[T]->IN`, the source's `INPUT_LOAD_T` (R136) -/
  | memT
  /-- `R->IN` (R137) -/
  | r
deriving DecidableEq, Repr

/-- Output-mux selector: where `OUT` goes (R66). -/
inductive OutMux where
  /-- `->T` (R156) -/
  | t
  /-- `->R` (R157) -/
  | r
  /-- `->[T]` (R158) -/
  | memT
  /-- `->io[T]`, the source's `OUTPUT_IO_T` (R159) -/
  | ioT
deriving DecidableEq, Repr

/-- A stack-depth delta, one of the four values of a 2-bit signed field (R69). -/
inductive Delta where
  | zero
  | plus1
  | minus2
  | minus1
deriving DecidableEq, Repr

/-- The sixteen operations of an ALU instruction (R67). -/
inductive AluOp where
  | passIn | swapTN | copyNToT | add | and | or | xor | mul
  | not | eq | lt | ult | shr | shl | load | ioRead
deriving DecidableEq, Repr

/-- The operands of an ALU instruction: every field of format A but the operation (R63, R80). -/
structure AluFields where
  /-- bit `ret`: 1 = set `EIP` from `R` (R161) -/
  ret : Bool
  /-- input mux (R65) -/
  inp : InMux
  /-- output mux (R66) -/
  out : OutMux
  /-- return-stack delta (R163) -/
  rd : Delta
  /-- data-stack delta (R162) -/
  dd : Delta
deriving DecidableEq, Repr

/-- The instruction set (R80). -/
inductive Instr where
  /-- HALT, the halt sentinel `0x0000` (R110) -/
  | halt
  /-- JMP (R111) -/
  | jmp (target : BitVec 13)
  /-- 0BRANCH (R112) -/
  | zeroBranch (target : BitVec 13)
  /-- CALL (R113) -/
  | call (target : BitVec 13)
  /-- LIT.PUSH (R90) -/
  | litPush (mag : BitVec 12) (shift : BitVec 2)
  /-- LIT.ADD (R91) -/
  | litAdd (mag : BitVec 12) (shift : BitVec 2)
  /-- ALU.IN (R140) -/
  | aluIn (f : AluFields)
  /-- ALU.T<->N (R141) -/
  | aluSwap (f : AluFields)
  /-- ALU.N->T (R142) -/
  | aluNToT (f : AluFields)
  /-- ALU.IN+N (R143) -/
  | aluAdd (f : AluFields)
  /-- ALU.IN&N (R144) -/
  | aluAnd (f : AluFields)
  /-- ALU.IN|N (R145) -/
  | aluOr (f : AluFields)
  /-- ALU.IN^N (R146) -/
  | aluXor (f : AluFields)
  /-- ALU.IN*N (R147) -/
  | aluMul (f : AluFields)
  /-- ALU.~IN (R148) -/
  | aluNot (f : AluFields)
  /-- ALU.IN==N (R149) -/
  | aluEq (f : AluFields)
  /-- ALU.N<IN (R150) -/
  | aluLt (f : AluFields)
  /-- ALU.Nu<IN (R151) -/
  | aluULt (f : AluFields)
  /-- ALU.IN>>T (R152) -/
  | aluShr (f : AluFields)
  /-- ALU.IN<<T (R153) -/
  | aluShl (f : AluFields)
  /-- ALU.[IN] (R154) -/
  | aluLoad (f : AluFields)
  /-- ALU.io[IN] (R155) -/
  | aluIoRead (f : AluFields)
deriving DecidableEq, Repr

/-- The ALU instruction with operation `op` and operand fields `f`. -/
def Instr.ofAlu (op : AluOp) (f : AluFields) : Instr :=
  match op with
  | .passIn => .aluIn f
  | .swapTN => .aluSwap f
  | .copyNToT => .aluNToT f
  | .add => .aluAdd f
  | .and => .aluAnd f
  | .or => .aluOr f
  | .xor => .aluXor f
  | .mul => .aluMul f
  | .not => .aluNot f
  | .eq => .aluEq f
  | .lt => .aluLt f
  | .ult => .aluULt f
  | .shr => .aluShr f
  | .shl => .aluShl f
  | .load => .aluLoad f
  | .ioRead => .aluIoRead f

end Sys2Proof
end

