-- ==== Sys2Proof/WellFormed.lean ====
section
/-! DEFINITION. Which instruction terms have an encoding. Every field's range is in its type (13-bit target, 12-bit magnitude,
2-bit shift, selector names), so one check is left: a jump to cell 0 has no word of its own, since `0x0000` is the halt
sentinel (30_encoding.md R70 (a), 41_control.md R111). -/

namespace Sys2Proof

/-- The instruction has an encoding (R70: every word decodes to a well-formed instruction). -/
def Instr.wellFormed : Instr → Bool
  | .halt => true
  | .jmp target => target != 0
  | .zeroBranch _ => true
  | .call _ => true
  | .litPush _ _ => true
  | .litAdd _ _ => true
  | .aluIn _ => true
  | .aluSwap _ => true
  | .aluNToT _ => true
  | .aluAdd _ => true
  | .aluAnd _ => true
  | .aluOr _ => true
  | .aluXor _ => true
  | .aluMul _ => true
  | .aluNot _ => true
  | .aluEq _ => true
  | .aluLt _ => true
  | .aluULt _ => true
  | .aluShr _ => true
  | .aluShl _ => true
  | .aluLoad _ => true
  | .aluIoRead _ => true

end Sys2Proof
end

