-- ==== Sys2Proof/Decode.lean ====
section
/-! DEFINITION. The codec: the layout record (30_encoding.md R79, with R61 to R67 and R69 as its values), the decoder (R68), the
encoder (R61 to R63), byte order of a stored word (20_memory.md R46), and the codec's checked constructors (R77, R71 (d)). -/

namespace Sys2Proof

/-- The class of a non-literal instruction (R64). -/
inductive InstrClass where
  | jump
  | zeroBranch
  | call
  | alu
deriving DecidableEq, Repr

/-- The layout of the 16-bit instruction as one record (R79): for each field the position of its lowest bit, and for each
coded field its values in the order of their codes (entry k has code k). -/
structure Layout where
  lit : Nat
  add : Nat
  shift : Nat
  mag : Nat
  cls : Nat
  target : Nat
  ret : Nat
  inp : Nat
  out : Nat
  op : Nat
  rd : Nat
  dd : Nat
  classes : Vector InstrClass (2 ^ 2)
  inputs : Vector InMux (2 ^ 2)
  outputs : Vector OutMux (2 ^ 2)
  ops : Vector AluOp (2 ^ 4)
  deltas : Vector Delta (2 ^ 2)

/-- The default layout: bit positions of R61 to R63 (D1), class codes of R64 (D2), input codes of R65 (D3), output codes of
R66 (D4), operation codes of R67 (D5), delta codes of R69 (D6). UNVERIFIED against the repository, as the spec says of
them: notes/assumptions/14.md. -/
def Layout.spec : Layout :=
  { lit := 15, add := 14, shift := 12, mag := 0
    cls := 13, target := 0
    ret := 12, inp := 10, out := 8, op := 4, rd := 2, dd := 0
    classes := #v[.jump, .zeroBranch, .call, .alu]
    inputs := #v[.n, .t, .memT, .r]
    outputs := #v[.t, .r, .memT, .ioT]
    ops := #v[.passIn, .swapTN, .copyNToT, .add, .and, .or, .xor, .mul,
              .not, .eq, .lt, .ult, .shr, .shl, .load, .ioRead]
    deltas := #v[.zero, .plus1, .minus2, .minus1] }

/-- `w[lo+n-1 : lo]` (R6). -/
def fieldAt (w : MemCell) (lo n : Nat) : BitVec n := w.extractLsb' lo n

/-- A field value moved to its place in a word. -/
def placeAt {n : Nat} (v : BitVec n) (lo : Nat) : MemCell := v.setWidth 16 <<< lo

/-- The value whose code is `c`: total, since a table has an entry for every code. -/
def valueOf {α : Type} {n : Nat} (table : Vector α (2 ^ n)) (c : BitVec n) : α := table[c.toNat]'c.isLt

/-- The code of `x`: its place in the table. -/
def codeOf {α : Type} [DecidableEq α] {n : Nat} (table : Vector α (2 ^ n)) (x : α) : BitVec n :=
  BitVec.ofNat n (table.toList.idxOf x)

/-- The operand fields of a format-A word (R63). -/
def aluFieldsAt (L : Layout) (w : MemCell) : AluFields :=
  { ret := w.getLsbD L.ret
    inp := valueOf L.inputs (fieldAt w L.inp 2)
    out := valueOf L.outputs (fieldAt w L.out 2)
    rd := valueOf L.deltas (fieldAt w L.rd 2)
    dd := valueOf L.deltas (fieldAt w L.dd 2) }

/-- The decoder through a layout record (R68, R79). The halt test comes first and compares the whole word. -/
def decodeWith (L : Layout) (w : MemCell) : Instr :=
  if w = 0 then .halt
  else if w.getLsbD L.lit then
    if w.getLsbD L.add then .litAdd (fieldAt w L.mag 12) (fieldAt w L.shift 2)
    else .litPush (fieldAt w L.mag 12) (fieldAt w L.shift 2)
  else
    match valueOf L.classes (fieldAt w L.cls 2) with
    | .jump => .jmp (fieldAt w L.target 13)
    | .zeroBranch => .zeroBranch (fieldAt w L.target 13)
    | .call => .call (fieldAt w L.target 13)
    | .alu => Instr.ofAlu (valueOf L.ops (fieldAt w L.op 4)) (aluFieldsAt L w)

/-- Decoding is total on words: every one of the 65536 patterns has a meaning (R68, R70). -/
def decode (w : MemCell) : Instr := decodeWith Layout.spec w

/-- Why a string of bytes holds no instruction: a word is two bytes (R60), so fewer than two is the only reason (R70). -/
inductive DecodeError where
  | truncated
deriving DecidableEq, Repr

/-- The instruction at the head of a byte image and the bytes after it: cell `k` is bytes `2k` (bits 7 to 0) and `2k+1` (R46). -/
def decodeBytes : List Byte → Except DecodeError (Instr × List Byte)
  | lo :: hi :: rest => .ok (decode (hi ++ lo), rest)
  | [_] => .error .truncated
  | [] => .error .truncated

/-- A format-L word (R61). -/
def encodeLit (L : Layout) (add : Bool) (mag : BitVec 12) (shift : BitVec 2) : MemCell :=
  placeAt 1#1 L.lit ||| placeAt (BitVec.ofBool add) L.add ||| placeAt shift L.shift ||| placeAt mag L.mag

/-- A format-J word (R62). -/
def encodeTransfer (L : Layout) (c : InstrClass) (target : BitVec 13) : MemCell :=
  placeAt (codeOf L.classes c) L.cls ||| placeAt target L.target

/-- A format-A word (R63). -/
def encodeAluWord (L : Layout) (op : AluOp) (f : AluFields) : MemCell :=
  placeAt (codeOf L.classes .alu) L.cls ||| placeAt (BitVec.ofBool f.ret) L.ret
    ||| placeAt (codeOf L.inputs f.inp) L.inp ||| placeAt (codeOf L.outputs f.out) L.out
    ||| placeAt (codeOf L.ops op) L.op ||| placeAt (codeOf L.deltas f.rd) L.rd ||| placeAt (codeOf L.deltas f.dd) L.dd

/-- The encoder through a layout record. -/
def encodeWith (L : Layout) : Instr → MemCell
  | .halt => 0
  | .jmp target => encodeTransfer L .jump target
  | .zeroBranch target => encodeTransfer L .zeroBranch target
  | .call target => encodeTransfer L .call target
  | .litPush mag shift => encodeLit L false mag shift
  | .litAdd mag shift => encodeLit L true mag shift
  | .aluIn f => encodeAluWord L .passIn f
  | .aluSwap f => encodeAluWord L .swapTN f
  | .aluNToT f => encodeAluWord L .copyNToT f
  | .aluAdd f => encodeAluWord L .add f
  | .aluAnd f => encodeAluWord L .and f
  | .aluOr f => encodeAluWord L .or f
  | .aluXor f => encodeAluWord L .xor f
  | .aluMul f => encodeAluWord L .mul f
  | .aluNot f => encodeAluWord L .not f
  | .aluEq f => encodeAluWord L .eq f
  | .aluLt f => encodeAluWord L .lt f
  | .aluULt f => encodeAluWord L .ult f
  | .aluShr f => encodeAluWord L .shr f
  | .aluShl f => encodeAluWord L .shl f
  | .aluLoad f => encodeAluWord L .load f
  | .aluIoRead f => encodeAluWord L .ioRead f

/-- The word of an instruction (R61 to R63). A well-formed instruction's word decodes to it. -/
def encode (i : Instr) : MemCell := encodeWith Layout.spec i

/-- The two bytes of an instruction in a byte image, low byte first (R46). -/
def encodeBytes (i : Instr) : List Byte := [(encode i).extractLsb' 0 8, (encode i).extractLsb' 8 8]

/-- The instruction read from an instruction whose bits are `w`, laid out as a byte image stores it (R46). -/
def decodeTableWord (nbits w : Nat) : Option Instr :=
  match decodeBytes [BitVec.ofNat 8 (w % 2 ^ nbits), BitVec.ofNat 8 (w % 2 ^ nbits / 256)] with
  | .ok (i, _) => some i
  | .error _ => none

/-- The mask and match of an instruction's row of spec/opcode_table.json (R80). -/
def Instr.tableRow : Instr → MemCell × MemCell
  | .halt => (0xFFFF, 0x0000)
  | .jmp _ => (0xE000, 0x0000)
  | .zeroBranch _ => (0xE000, 0x2000)
  | .call _ => (0xE000, 0x4000)
  | .litPush _ _ => (0xC000, 0x8000)
  | .litAdd _ _ => (0xC000, 0xC000)
  | .aluIn _ => (0xE0F0, 0x6000)
  | .aluSwap _ => (0xE0F0, 0x6010)
  | .aluNToT _ => (0xE0F0, 0x6020)
  | .aluAdd _ => (0xE0F0, 0x6030)
  | .aluAnd _ => (0xE0F0, 0x6040)
  | .aluOr _ => (0xE0F0, 0x6050)
  | .aluXor _ => (0xE0F0, 0x6060)
  | .aluMul _ => (0xE0F0, 0x6070)
  | .aluNot _ => (0xE0F0, 0x6080)
  | .aluEq _ => (0xE0F0, 0x6090)
  | .aluLt _ => (0xE0F0, 0x60A0)
  | .aluULt _ => (0xE0F0, 0x60B0)
  | .aluShr _ => (0xE0F0, 0x60C0)
  | .aluShl _ => (0xE0F0, 0x60D0)
  | .aluLoad _ => (0xE0F0, 0x60E0)
  | .aluIoRead _ => (0xE0F0, 0x60F0)

/-! ## The codec's checked constructors (R77)

They belong to the assembler side: an out-of-range field "fails with an `EncodingError`", which the core never raises
(60_exceptions.md R239). -/

/-- An `EncodingError` (R71 (d), R239). The spec gives the error no fields; that it records which kind of field was out of range is
the model's choice (DESIGN CHOICE, notes/assumptions/22.md). -/
inductive EncodingError where
  | magnitude
  | shift
  | target
  | delta
deriving DecidableEq, Repr

/-- The kind argument of `encode_jump` (R77). -/
inductive JumpKind where
  | jmp
  | zeroBranch
  | call
deriving DecidableEq, Repr

/-- The delta of a signed number in {-2,-1,0,1} (R69). -/
def deltaOfInt (d : Int) : Except EncodingError Delta :=
  if d = 0 then .ok .zero
  else if d = 1 then .ok .plus1
  else if d = -1 then .ok .minus1
  else if d = -2 then .ok .minus2
  else .error .delta

/-- `encode_literal(value12, shift, add)` (R77). With both fields out of range the error names the magnitude: the spec gives no order,
DESIGN CHOICE, notes/assumptions/22.md. -/
def encodeLiteral (value12 shift : Nat) (add : Bool) : Except EncodingError MemCell :=
  if value12 > 4095 then .error .magnitude
  else if shift > 3 then .error .shift
  else .ok (encodeLit Layout.spec add (BitVec.ofNat 12 value12) (BitVec.ofNat 2 shift))

/-- `encode_jump(kind, target13)` (R77). `encode_jump(JMP, 0)` yields the halt sentinel. -/
def encodeJump (kind : JumpKind) (target13 : Nat) : Except EncodingError MemCell :=
  if target13 > 8191 then .error .target
  else
    let c := match kind with
      | .jmp => InstrClass.jump
      | .zeroBranch => InstrClass.zeroBranch
      | .call => InstrClass.call
    .ok (encodeTransfer Layout.spec c (BitVec.ofNat 13 target13))

/-- `encode_alu(in_mux, op, out_mux, dstack_delta, rstack_delta, ret_flag)` (R77). -/
def encodeAlu (inMux : InMux) (op : AluOp) (outMux : OutMux) (dstackDelta rstackDelta : Int) (retFlag : Bool) :
    Except EncodingError MemCell :=
  match deltaOfInt dstackDelta, deltaOfInt rstackDelta with
  | .ok d, .ok r => .ok (encodeAluWord Layout.spec op { ret := retFlag, inp := inMux, out := outMux, rd := r, dd := d })
  | .error e, _ => .error e
  | .ok _, .error e => .error e

/-- `equals(a,b)` (R77): "raw 16-bit equality" of the words the constructors yield. -/
def equals (a b : MemCell) : Bool := a == b

/-- `equals` on instruction terms: equality of their words. It differs from the equality of terms where two terms share a
word, as `jmp 0` and `halt` do (R70 (a), R77). -/
def Instr.equals (i j : Instr) : Bool := Sys2Proof.equals (encode i) (encode j)

end Sys2Proof
end

