-- ==== Sys2Proof/Machine/Flags.lean ====
section
/-! DEFINITION. The core has no flags (spec 10_state.md R24): a comparison's result is a 64-bit Boolean on the data stack. This
file holds that Boolean (00_scope.md R6) and the three comparisons (42_alu.md R149 to R151, R160 (f)). -/

namespace Sys2Proof.Machine

/-- `TRUE`: all bits set (R6). -/
def trueCell : StackCell := BitVec.allOnes 64

/-- `FALSE` (R6). -/
def falseCell : StackCell := 0

/-- `bool64(c)` (R6). -/
def bool64 (c : Bool) : StackCell := if c then trueCell else falseCell

/-- `bool64(IN = N0)` (R149). -/
def cmpEq (inp n0 : StackCell) : StackCell := bool64 (inp == n0)

/-- `bool64(N0 <s IN)`, both read as two's complement (R150). -/
def cmpLt (inp n0 : StackCell) : StackCell := bool64 (n0.slt inp)

/-- `bool64(N0 <u IN)`, both read as unsigned (R151). -/
def cmpULt (inp n0 : StackCell) : StackCell := bool64 (n0.ult inp)

end Sys2Proof.Machine
end

