-- ==== Sys2Proof/Config.lean ====
section
/-! DEFINITION. The parameters that an implementation fixes (spec 00_scope.md R5; 92_eei_decisions.md, "Open parameters in one
list") and the free values the spec leaves open. The record `Config` is plain data and stands in `State`, where no
instruction writes it (R25): a statement about every state is then a statement about every value of the parameters.
The layout record of R79 is in Decode.lean; the launch parameters `ENTRY` and `INIT_*` are in Machine/State.lean. -/

namespace Sys2Proof

/-- The direction of a shift: the first argument of `SHIFT_OVER` (R5, R152, R153). -/
inductive ShiftDir where
  | left
  | right
deriving DecidableEq, Repr

/-- The value `SHIFT_OVER(dir, IN, count)` of a shift whose count is 64 or more, as a function nothing constrains (R5, R152, R153,
93_implementation_defined.md U9). FREE VALUE, notes/assumptions/7.md. -/
opaque freeShift : ShiftDir → StackCell → StackCell → StackCell

/-- The value of the k-th read of an unrecognised I/O address when `UNSUPPORTED_IO_FATAL` is false: "any 64-bit value",
"possibly different each time" (R196, U4). FREE VALUE, notes/assumptions/8.md. -/
opaque freeRead : Nat → StackCell

/-- The parameter `SHIFT_OVER` of R5 as plain data: a constant (the spec's default is the constant 0, D15), or the
unconstrained function `freeShift`. -/
inductive ShiftOver where
  | constant (v : StackCell)
  | free
deriving DecidableEq, Repr

/-- The implementation parameters of R5, "fixed for the whole run" (R25). -/
structure Config where
  /-- `MEM_CELLS`: the number of cells of `MEM` (D17). -/
  memCells : Nat
  /-- `DCAP`: the number of cells of the data-stack array (D18). -/
  dcap : Nat
  /-- `RCAP`: the number of cells of the return-stack array (D18). -/
  rcap : Nat
  /-- `UNSUPPORTED_IO_FATAL`: whether an unrecognised I/O address faults (D27). -/
  unsupportedIoFatal : Bool
  /-- `SHIFT_OVER`: the result of a shift by 64 or more (D15). -/
  shiftOver : ShiftOver
deriving DecidableEq, Repr

/-- The constraint column of R5. -/
abbrev Config.wf (c : Config) : Prop :=
  1 ≤ c.memCells ∧ c.memCells ≤ 2 ^ 63 ∧ 1 ≤ c.dcap ∧ 1 ≤ c.rcap

/-- The parameters of the reset state: `UNSUPPORTED_IO_FATAL` and `SHIFT_OVER` at the defaults of R5 (D27, D15), `MEM_CELLS` at the
suggested 8192 (notes/assumptions/4.md), `DCAP = RCAP = 32` (DESIGN CHOICE, notes/assumptions/5.md). -/
def Config.initial : Config :=
  { memCells := 8192, dcap := 32, rcap := 32, unsupportedIoFatal := true, shiftOver := .constant 0 }

end Sys2Proof
end

