-- ==== Sys2Proof/Machine/Memory.lean ====
section
/-! DEFINITION. The memory `MEM` as plain data (spec 10_state.md R17, 20_memory.md R40 to R46): the byte image of the array of
16-bit cells, in the byte order R46 fixes (cell `k` is bytes `2k` and `2k + 1`, low byte first), as the list of its bytes
that differ from what an unlisted byte reads as, addresses strictly rising. -/

namespace Sys2Proof.Machine

/-- The byte image of `MEM` (notes/assumptions/1.md). -/
abbrev Memory := List Host.Cell

/-- What a byte no entry lists reads as: 0, so that cells beyond the launch image are halt sentinels (R267 (c)).
DESIGN CHOICE, unsafe: notes/assumptions/2.md. -/
def unlistedByte : Byte := 0

/-- The canonical form: addresses strictly rising, and no entry that an unlisted address would read as. -/
abbrev Memory.wf (m : Memory) : Prop :=
  m.Pairwise (fun x y => x.1 < y.1) ∧ ∀ c ∈ m, c.2 ≠ unlistedByte

/-- The byte at byte address `a` of the image. -/
def Memory.readByte : Memory → Nat → Byte
  | [], _ => unlistedByte
  | c :: rest, a => if c.1 = a then c.2 else Memory.readByte rest a

/-- Put an entry before the first one with a higher address. -/
def Memory.insertByte : Memory → Nat → Byte → Memory
  | [], a, v => [(a, v)]
  | c :: rest, a, v => if a < c.1 then (a, v) :: c :: rest else c :: Memory.insertByte rest a v

/-- Store the byte `v` at byte address `a`: writing what an unlisted byte reads as leaves no entry. -/
def Memory.writeByte (m : Memory) (a : Nat) (v : Byte) : Memory :=
  if v = unlistedByte then m.filter (fun c => c.1 ≠ a)
  else Memory.insertByte (m.filter (fun c => c.1 ≠ a)) a v

/-- `MEM[k]` (R41), high byte at the higher byte address (R46). -/
def Memory.readCell (m : Memory) (k : Nat) : MemCell := m.readByte (2 * k + 1) ++ m.readByte (2 * k)

/-- `MEM[k] <- v` (R43). -/
def Memory.writeCell (m : Memory) (k : Nat) (v : MemCell) : Memory :=
  (m.writeByte (2 * k) (v.extractLsb' 0 8)).writeByte (2 * k + 1) (v.extractLsb' 8 8)

/-- The image that holds the given words from cell `k` upward over `m` (the compiled program of R262). -/
def Memory.withWords : Memory → Nat → List MemCell → Memory
  | m, _, [] => m
  | m, k, w :: ws => Memory.withWords (m.writeCell k w) (k + 1) ws

end Sys2Proof.Machine
end

