-- ==== Sys2Proof/Machine/State.lean ====
section
/-! DEFINITION. The state of the core (spec 10_state.md R10 to R19), its faults (60_exceptions.md R230 to R235), the launch
(R28, 70_reset_and_hazards.md R260), and the two reason types of a step that gives no next state. -/

namespace Sys2Proof.Machine

/-- Which stack a `StackError` is about (R231). -/
inductive StackId where
  | data
  | ret
deriving DecidableEq, Repr

/-- Whether an index lay above or below the array (R231). -/
inductive Bound where
  | overflow
  | underflow
deriving DecidableEq, Repr

/-- The direction of an unsupported I/O access (R234). -/
inductive IoDir where
  | read
  | write
deriving DecidableEq, Repr

/-- The four fault kinds of the core with the values they record (R231 to R235). A fault is an architectural event: it
sets `STATUS` and the step has a next state (R236, notes/assumptions/12.md). -/
inductive CoreFault where
  /-- `StackError(which, direction)` (R231) -/
  | stackError (which : StackId) (direction : Bound)
  /-- `CapacityError(address)` (R232) -/
  | capacityError (address : StackCell)
  /-- `IoError(end of input)` (R233) -/
  | ioError
  /-- `UnsupportedOperationError(direction, address)` (R234) -/
  | unsupportedOperation (direction : IoDir) (address : StackCell)
deriving DecidableEq, Repr

/-- `STATUS` (R19). -/
inductive Status where
  | running
  | halted
  | faulted (k : CoreFault)
deriving DecidableEq, Repr

/-- Why the core has no step. Each is a place where the spec itself says that there is none; none is a fault of R230. -/
inductive Fault where
  /-- Raised by `step` where `STATUS = halted`: "there is no step" (R263). Safe. -/
  | runHalted
  /-- Raised by `step` where `STATUS = faulted`: "there is no step" (R263). Safe. -/
  | runFaulted (k : CoreFault)
  /-- Raised by an ALU instruction that needs a byte while `INQ` is empty and open: the core "has no step" until the host
  acts, and the state does not change (R192, U7; notes/assumptions/11.md). Safe. -/
  | heldForInput
deriving DecidableEq, Repr

/-- Why the model gives an instruction no meaning. -/
inductive Refusal where
  /-- Raised by an arm of `exec` whose instruction has no meaning yet; no arm is left. Safe. -/
  | notModelled (mnemonic : String)
deriving DecidableEq, Repr

/-- The state of the core: the table of R10, then the parameters of R5 and the model's own counter. -/
structure State where
  /-- `T`, top of the data stack, cached (R11) -/
  t : StackCell
  /-- `DS[0 .. DCAP-1]` (R12) -/
  ds : List StackCell
  /-- `SP`, data-stack depth counter (R12) -/
  sp : Nat
  /-- `R`, top of the return stack, cached (R13) -/
  r : StackCell
  /-- `RS[0 .. RCAP-1]` (R14) -/
  rs : List StackCell
  /-- `RSP`, return-stack depth counter (R14) -/
  rsp : Nat
  /-- `EIP`, a cell address, unsigned (R15) -/
  eip : StackCell
  /-- `CYCLES` (R16) -/
  cycles : BitVec 64
  /-- `MEM` (R17) -/
  mem : Memory
  /-- `INQ`, input bytes not yet read, oldest first (R18) -/
  inq : List Byte
  /-- `IN_CLOSED`: no further input byte will ever arrive (R18) -/
  inClosed : Bool
  /-- `OUTQ`, bytes written, oldest first (R18) -/
  outq : List Byte
  /-- `STATUS` (R19) -/
  status : Status
  /-- the parameters of R5, "fixed for the whole run" (R25; notes/assumptions/4.md) -/
  cfg : Config
  /-- the MODEL's own: how many free values `freeRead` has given (R196; notes/assumptions/8.md) -/
  freeReads : Nat
deriving DecidableEq, Repr

/-- What the host hands to the core at launch (R28, R27 "launch"): the parameters of R5, and a possibly non-empty
initial stack state. -/
structure Launch where
  cfg : Config
  /-- `ENTRY` (R261) -/
  entry : StackCell
  /-- `INIT_T` -/
  initT : StackCell
  /-- `INIT_R` -/
  initR : StackCell
  /-- `INIT_DS` -/
  initDS : List StackCell
  /-- `INIT_RS` -/
  initRS : List StackCell
  /-- `SP` of the initial stack state, 0 for a fresh Context -/
  sp : Nat
  /-- `RSP` of the initial stack state, 0 for a fresh Context -/
  rsp : Nat
  /-- `INIT_MEM` -/
  initMem : Memory
  /-- the input supplied by the host -/
  inq : List Byte
  /-- whether the host has closed the input -/
  inClosed : Bool
deriving DecidableEq, Repr

/-- The state a launch puts the core in, atomically (R28, R260). -/
def State.launch (p : Launch) : State :=
  { t := p.initT, ds := p.initDS, sp := p.sp
    r := p.initR, rs := p.initRS, rsp := p.rsp
    eip := p.entry, cycles := 0, mem := p.initMem
    inq := p.inq, inClosed := p.inClosed, outq := []
    status := .running, cfg := p.cfg, freeReads := 0 }

/-- The launch of a fresh Context with nothing loaded: `ENTRY = 0`, `SP = RSP = 0` as R28 states. `INIT_T`, `INIT_R`, `INIT_DS`,
`INIT_RS` are 0 (DESIGN CHOICE, notes/assumptions/3.md), `INIT_MEM` lists nothing (notes/assumptions/2.md), the input is
empty and closed (notes/assumptions/9.md). -/
def Launch.fresh : Launch :=
  { cfg := Config.initial, entry := 0, initT := 0, initR := 0
    initDS := List.replicate 32 0, initRS := List.replicate 32 0, sp := 0, rsp := 0
    initMem := [], inq := [], inClosed := true }

/-- The machine right after reset: "Launch is the core's reset" (R260). -/
def State.reset : State := State.launch Launch.fresh

end Sys2Proof.Machine
end

