-- ==== Sys2Proof/Machine/Ops.lean ====
section
/-! DEFINITION. The named operations over memory, stacks and the instruction pointer that every meaning uses (spec 10_state.md
R11 to R23, R29; 20_memory.md R41 to R45), and raising a fault (60_exceptions.md R236). There is no return from a fault
(R238), so nothing stands beside it. -/

namespace Sys2Proof.Machine

/-- What a meaning answers. -/
abbrev Result := Host.Outcome State Fault Refusal

/-! ## Faults and commit -/

/-- `raise`: `STATUS <- faulted(kind, info)` "and nothing else changes" (R236). -/
def State.raise (s : State) (k : CoreFault) : State := { s with status := .faulted k }

/-- The end of an instruction that commits: `EIP` is set, `CYCLES` counts one (R15, R16, R165). -/
def State.commit (s : State) (eip : StackCell) : State := { s with eip := eip, cycles := s.cycles + 1 }

/-! ## Stacks -/

/-- `DS[i]` (R7). An index at or above the array's length is never read (R231); 0 stands there to make the function total
(notes/assumptions/16.md). -/
def State.dsAt (s : State) (i : Nat) : StackCell := s.ds.getD i 0

/-- `RS[i]` (R7), as `State.dsAt`. -/
def State.rsAt (s : State) (i : Nat) : StackCell := s.rs.getD i 0

/-- `N`, "not a separate register": `DS[SP-1]` (R12). Used only where `SP >= 1` (R133). -/
def State.nos (s : State) : StackCell := s.dsAt (s.sp - 1)

/-- `DPush(v)` (R20). -/
def State.dPush (s : State) (v : StackCell) : State :=
  { s with ds := s.ds.set s.sp s.t, sp := s.sp + 1, t := v }

/-- `DPop()` (R21). -/
def State.dPop (s : State) : State := { s with t := s.dsAt (s.sp - 1), sp := s.sp - 1 }

/-- `RPush(v)` (R22). -/
def State.rPush (s : State) (v : StackCell) : State :=
  { s with rs := s.rs.set s.rsp s.r, rsp := s.rsp + 1, r := v }

/-- `RPop()` (R23). -/
def State.rPop (s : State) : State := { s with r := s.rsAt (s.rsp - 1), rsp := s.rsp - 1 }

/-- The logical data stack, bottom first (R29). -/
def State.dstack (s : State) : List StackCell :=
  if s.sp = 0 then [] else (s.ds.take s.sp).drop 1 ++ [s.t]

/-- The logical return stack, bottom first (R29). -/
def State.rstack (s : State) : List StackCell :=
  if s.rsp = 0 then [] else (s.rs.take s.rsp).drop 1 ++ [s.r]

/-! ## Memory -/

/-- A cell address is valid when `a < MEM_CELLS`, `a` read as unsigned (R41). -/
def State.validAddr (s : State) (a : StackCell) : Bool := a.toNat < s.cfg.memCells

/-- `MEM[a]` for a valid address. -/
def State.cellAt (s : State) (a : StackCell) : MemCell := s.mem.readCell a.toNat

/-- `MemRead(a, 1)` (R42). -/
def State.memRead (s : State) (a : StackCell) : Except CoreFault MemCell :=
  if s.validAddr a then .ok (s.cellAt a) else .error (.capacityError a)

/-- `MEM[a] <- v` for a valid address (R43). -/
def State.setCell (s : State) (a : StackCell) (v : MemCell) : State := { s with mem := s.mem.writeCell a.toNat v }

/-- A data load's value: one cell, zero-extended (R45). -/
def State.loadCell (s : State) (a : StackCell) : StackCell := (s.cellAt a).setWidth 64

/-- A data store: the low 16 bits to one cell, bits 63:16 dropped (R45). -/
def State.storeCell (s : State) (a v : StackCell) : State := s.setCell a (v.setWidth 16)

/-- Instruction fetch (R44). -/
def State.fetch (s : State) : Except CoreFault MemCell := s.memRead s.eip

end Sys2Proof.Machine
end

