-- ==== Sys2Proof/Machine/Io.lean ====
section
/-! DEFINITION. The I/O space and its handlers (spec 43_io.md R190 to R196; 20_memory.md R40), and what the host may do to a
running core (10_state.md R27, 43_io.md R192, 70_reset_and_hazards.md R265). -/

namespace Sys2Proof.Machine

/-- `0xE0`, byte input (R190). -/
def ioByteIn : StackCell := 0xE0

/-- `0xF0`, multi-byte output (R190). -/
def ioMultiOut : StackCell := 0xF0

/-- `0xF1`, single-byte output (R190). -/
def ioByteOut : StackCell := 0xF1

/-- `bitlen(v)` (R6). -/
def bitlen (v : Nat) : Nat := if v = 0 then 0 else Nat.log2 v + 1

/-- The bytes address `0xF0` appends: as many as cover the value's significant bits, low byte first (R195). -/
def multiBytes (v : StackCell) : List Byte :=
  (List.range ((bitlen v.toNat + 7) / 8)).map (fun i => v.extractLsb' (8 * i) 8)

/-- The bytes a write of `v` to I/O address `a` appends to `OUTQ`; none at an unrecognised address (R193, R194, R196). -/
def ioOutBytes (a v : StackCell) : List Byte :=
  if a = ioByteOut then [v.extractLsb' 0 8]
  else if a = ioMultiOut then multiBytes v
  else []

/-- A write address is recognised (R190). -/
def ioWritable (a : StackCell) : Bool := a == ioMultiOut || a == ioByteOut

/-- `IoWrite(a, v)` where it raises no fault (R193). Appending never fails. -/
def State.ioWrite (s : State) (a v : StackCell) : State := { s with outq := s.outq ++ ioOutBytes a v }

/-- What the operation of an ALU instruction comes to: a value with the state its side effect leaves, a fault, or a hold. -/
inductive OpResult where
  | value (out : StackCell) (s : State)
  | raises (k : CoreFault)
  | held

/-- `IoRead(a)` (R191). An unrecognised address that does not fault yields the next free value (R196). -/
def ioRead (a : StackCell) (s : State) : OpResult :=
  if a = ioByteIn then
    match s.inq with
    | b :: rest => .value (b.setWidth 64) { s with inq := rest }
    | [] => if s.inClosed then .raises .ioError else .held
  else if s.cfg.unsupportedIoFatal then .raises (.unsupportedOperation .read a)
  else .value (freeRead s.freeReads) { s with freeReads := s.freeReads + 1 }

/-! ## The host (R27 "input supply", R192, R265)

These are no steps of the core: they may happen between any two steps of a running core (notes/assumptions/13.md). -/

/-- The host appends bytes to the tail of `INQ`: possible while the run goes on and the stream is open (R18, R265). -/
def State.hostAppend (s : State) (bytes : List Byte) : Option State :=
  if s.status = .running ∧ s.inClosed = false then some { s with inq := s.inq ++ bytes } else none

/-- The host sets `IN_CLOSED`, once; it is never cleared (R265). -/
def State.hostClose (s : State) : Option State :=
  if s.status = .running ∧ s.inClosed = false then some { s with inClosed := true } else none

end Sys2Proof.Machine
end

