-- ==== Sys2Proof/Machine/Operands.lean ====
section
/-! DEFINITION. The operand forms: the literal value (spec 30_encoding.md R71), the jump target (R71), and the whole of the ALU
instruction's master rule (42_alu.md R131): operand sampling (R133), the check table (R132), the input mux (R134 to R137), the
sixteen operations (R140 to R155), the deltas (R162, R163), the output mux (R156 to R159) and the return flag (R161). -/

namespace Sys2Proof.Machine

/-- `value = zext_12(mag) <<_64 (12 * shift)` (R71, R92). -/
def litValue (mag : BitVec 12) (shift : BitVec 2) : StackCell := mag.setWidth 64 <<< (12 * shift.toNat)

/-- `zext_13(target)`: absolute, not scaled (R71 (b)). -/
def targetAddr (target : BitVec 13) : StackCell := target.setWidth 64

/-- `sext_2(field)` read as a signed integer (R69). -/
def deltaValue : Delta → Int
  | .zero => 0
  | .plus1 => 1
  | .minus2 => -2
  | .minus1 => -1

/-! ## Phase 0 and 2: operands -/

/-- `usesN`: the input mux or the operation reads `N0` (R131). -/
def usesN (op : AluOp) (f : AluFields) : Bool :=
  f.inp == .n ||
    match op with
    | .passIn => false
    | .swapTN => true
    | .copyNToT => true
    | .add => true
    | .and => true
    | .or => true
    | .xor => true
    | .mul => true
    | .not => false
    | .eq => true
    | .lt => true
    | .ult => true
    | .shr => false
    | .shl => false
    | .load => false
    | .ioRead => false

/-- The input mux: `IN` (R134 to R137). -/
def inOperand (m : InMux) (s : State) : StackCell :=
  match m with
  | .n => s.nos
  | .t => s.t
  | .memT => s.loadCell s.t
  | .r => s.r

/-- The temporaries of one instruction, sampled before any write (R133). -/
structure Sampled where
  t0 : StackCell
  n0 : StackCell
  r0 : StackCell
  inp : StackCell
deriving DecidableEq, Repr

/-- Phases 0 and 2 (R131). -/
def sample (f : AluFields) (s : State) : Sampled :=
  { t0 := s.t, n0 := s.nos, r0 := s.r, inp := inOperand f.inp s }

/-! ## Phase 1: checks -/

/-- A row of the check table: a condition that faults, and the fault. -/
def faultIf (c : Bool) (k : CoreFault) : Option CoreFault := if c then some k else none

/-- Rows 2 and 3 of R132: a delta that would index outside the array. -/
def deltaFault (which : StackId) (d : Delta) (depth capacity : Nat) : Option CoreFault :=
  match d with
  | .zero => none
  | .plus1 => faultIf (depth ≥ capacity) (.stackError which .overflow)
  | .minus1 => faultIf (depth < 1) (.stackError which .underflow)
  | .minus2 => faultIf (depth < 2) (.stackError which .underflow)

/-- Rows 1 to 8 of R132, in that order. Row 9, and the hold, need the input stream and are `ioRead`'s. -/
def aluChecks (op : AluOp) (f : AluFields) (s : State) : List (Option CoreFault) :=
  let inp := inOperand f.inp s
  [ faultIf (usesN op f && s.sp == 0) (.stackError .data .underflow)
  , deltaFault .data f.dd s.sp s.cfg.dcap
  , deltaFault .ret f.rd s.rsp s.cfg.rcap
  , faultIf (f.inp == .memT && !s.validAddr s.t) (.capacityError s.t)
  , faultIf (op == .load && !s.validAddr inp) (.capacityError inp)
  , faultIf (op == .ioRead && inp != ioByteIn && s.cfg.unsupportedIoFatal) (.unsupportedOperation .read inp)
  , faultIf (f.out == .memT && !s.validAddr s.t) (.capacityError s.t)
  , faultIf (f.out == .ioT && !ioWritable s.t && s.cfg.unsupportedIoFatal) (.unsupportedOperation .write s.t) ]

/-- "the first that fails ends the instruction with that fault" (R132). -/
def aluFault (op : AluOp) (f : AluFields) (s : State) : Option CoreFault := (aluChecks op f s).findSome? id

/-! ## Phase 3: operations -/

/-- `SHIFT_OVER(dir, IN, count)` (R5, D15). -/
def shiftOver (c : Config) (dir : ShiftDir) (inp count : StackCell) : StackCell :=
  match c.shiftOver with
  | .constant v => v
  | .free => freeShift dir inp count

/-- A logical shift with the count read as unsigned 64 bits (R152, R153). -/
def shiftCell (c : Config) (dir : ShiftDir) (inp count : StackCell) : StackCell :=
  if count.toNat ≤ 63 then
    match dir with
    | .left => inp <<< count.toNat
    | .right => inp >>> count.toNat
  else shiftOver c dir inp count

/-- Phase 3: `OUT`, and the operation's side effect (R140 to R155). -/
def operate (op : AluOp) (x : Sampled) (s : State) : OpResult :=
  match op with
  | .passIn => .value x.inp s
  | .swapTN => .value x.inp { s with t := x.n0, ds := s.ds.set (s.sp - 1) x.t0 }
  | .copyNToT => .value x.inp { s with t := x.n0 }
  | .add => .value (x.inp + x.n0) s
  | .and => .value (x.inp &&& x.n0) s
  | .or => .value (x.inp ||| x.n0) s
  | .xor => .value (x.inp ^^^ x.n0) s
  | .mul => .value (x.inp * x.n0) s
  | .not => .value (~~~x.inp) s
  | .eq => .value (cmpEq x.inp x.n0) s
  | .lt => .value (cmpLt x.inp x.n0) s
  | .ult => .value (cmpULt x.inp x.n0) s
  | .shr => .value (shiftCell s.cfg .right x.inp x.t0) s
  | .shl => .value (shiftCell s.cfg .left x.inp x.t0) s
  | .load => .value (s.loadCell x.inp) s
  | .ioRead => ioRead x.inp s

/-! ## Phases 4 to 7 -/

/-- Phase 4: the data-stack delta, pushing and popping the cached top (R162). -/
def dataDelta (d : Delta) (s : State) : State :=
  match d with
  | .zero => s
  | .plus1 => { s with ds := s.ds.set s.sp s.t, sp := s.sp + 1 }
  | .minus1 => { s with t := s.dsAt (s.sp - 1), sp := s.sp - 1 }
  | .minus2 => { s with t := s.dsAt (s.sp - 2), sp := s.sp - 2 }

/-- Phase 5: the return-stack delta (R163). -/
def returnDelta (d : Delta) (s : State) : State :=
  match d with
  | .zero => s
  | .plus1 => { s with rs := s.rs.set s.rsp s.r, rsp := s.rsp + 1 }
  | .minus1 => { s with r := s.rsAt (s.rsp - 1), rsp := s.rsp - 1 }
  | .minus2 => { s with r := s.rsAt (s.rsp - 2), rsp := s.rsp - 2 }

/-- Phase 6: the output mux; the address is `T0` (R133, R156 to R159). -/
def outputMux (m : OutMux) (t0 out : StackCell) (s : State) : State :=
  match m with
  | .t => { s with t := out }
  | .r => { s with r := out }
  | .memT => s.storeCell t0 out
  | .ioT => s.ioWrite t0 out

/-- Phase 7: the new `EIP`, `R_0` for a return and the next cell otherwise (R161). -/
def nextEip (f : AluFields) (s : State) : StackCell := if f.ret then s.r else s.eip + 1

/-- Phases 4 to 7 on the state `s1` that the operation left; `s` is the state at the start (R131). -/
def aluFinish (f : AluFields) (out : StackCell) (s s1 : State) : State :=
  (outputMux f.out s.t out (returnDelta f.rd (dataDelta f.dd s1))).commit (nextEip f s)

/-- The master rule of the ALU family (R131): every check precedes every write. -/
def aluRun (op : AluOp) (f : AluFields) (s : State) : Result :=
  match aluFault op f s with
  | some k => .next (s.raise k)
  | none =>
    match operate op (sample f s) s with
    | .value out s1 => .next (aluFinish f out s s1)
    | .raises k => .next (s.raise k)
    | .held => .fault .heldForInput

end Sys2Proof.Machine
end

