-- ==== Sys2Proof/Machine/Alu.lean ====
section
/-! DEFINITION. The ALU family (spec 42_alu.md): each instruction is the master rule R131 with its own operation. -/

namespace Sys2Proof.Machine

/-- ALU.IN (R140): `OUT = IN`. -/
def execAluIn (f : AluFields) (s : State) : Result := aluRun .passIn f s

/-- ALU.T<->N (R141): swap `T` and `N`, `OUT = IN`. -/
def execAluSwap (f : AluFields) (s : State) : Result := aluRun .swapTN f s

/-- ALU.N->T (R142): copy `N` to `T`, `OUT = IN`. -/
def execAluNToT (f : AluFields) (s : State) : Result := aluRun .copyNToT f s

/-- ALU.IN+N (R143): `OUT = IN + N0` modulo 2^64. -/
def execAluAdd (f : AluFields) (s : State) : Result := aluRun .add f s

/-- ALU.IN&N (R144): `OUT = IN & N0`. -/
def execAluAnd (f : AluFields) (s : State) : Result := aluRun .and f s

/-- ALU.IN|N (R145): `OUT = IN | N0`. -/
def execAluOr (f : AluFields) (s : State) : Result := aluRun .or f s

/-- ALU.IN^N (R146): `OUT = IN ^ N0`. -/
def execAluXor (f : AluFields) (s : State) : Result := aluRun .xor f s

/-- ALU.IN*N (R147): the low 64 bits of `IN * N0`. -/
def execAluMul (f : AluFields) (s : State) : Result := aluRun .mul f s

/-- ALU.~IN (R148): `OUT = ~IN`. -/
def execAluNot (f : AluFields) (s : State) : Result := aluRun .not f s

/-- ALU.IN==N (R149): `OUT = bool64(IN = N0)`. -/
def execAluEq (f : AluFields) (s : State) : Result := aluRun .eq f s

/-- ALU.N<IN (R150): `OUT = bool64(N0 <s IN)`. -/
def execAluLt (f : AluFields) (s : State) : Result := aluRun .lt f s

/-- ALU.Nu<IN (R151): `OUT = bool64(N0 <u IN)`. -/
def execAluULt (f : AluFields) (s : State) : Result := aluRun .ult f s

/-- ALU.IN>>T (R152): `IN` shifted right by `T0`. -/
def execAluShr (f : AluFields) (s : State) : Result := aluRun .shr f s

/-- ALU.IN<<T (R153): `IN` shifted left by `T0`. -/
def execAluShl (f : AluFields) (s : State) : Result := aluRun .shl f s

/-- ALU.[IN] (R154): `OUT = zext_16(MemRead(IN, 1))`. -/
def execAluLoad (f : AluFields) (s : State) : Result := aluRun .load f s

/-- ALU.io[IN] (R155): `OUT = IoRead(IN)`. -/
def execAluIoRead (f : AluFields) (s : State) : Result := aluRun .ioRead f s

end Sys2Proof.Machine
end

