-- ==== Sys2Proof/Machine/Control.lean ====
section
/-! DEFINITION. The halt sentinel and the control-transfer family (spec 41_control.md R110 to R115). -/

namespace Sys2Proof.Machine

/-- HALT (R110): `STATUS <- halted`, nothing else changes. -/
def execHalt (s : State) : Result := .next { s with status := .halted }

/-- JMP target (R111). -/
def execJmp (target : BitVec 13) (s : State) : Result := .next (s.commit (targetAddr target))

/-- 0BRANCH target (R112): the pop happens whether or not the jump is taken. -/
def execZeroBranch (target : BitVec 13) (s : State) : Result :=
  if s.sp < 1 then .next (s.raise (.stackError .data .underflow))
  else .next (s.dPop.commit (if s.t = 0 then targetAddr target else s.eip + 1))

/-- CALL target (R113): the link is `EIP + 1`. -/
def execCall (target : BitVec 13) (s : State) : Result :=
  if s.rsp ≥ s.cfg.rcap then .next (s.raise (.stackError .ret .overflow))
  else .next ((s.rPush (s.eip + 1)).commit (targetAddr target))

end Sys2Proof.Machine
end

