-- ==== Sys2Proof/Machine/Literal.lean ====
section
/-! DEFINITION. The literal family (spec 40_literal.md R90 to R93). -/

namespace Sys2Proof.Machine

/-- LIT.PUSH mag, shift (R90). -/
def execLitPush (mag : BitVec 12) (shift : BitVec 2) (s : State) : Result :=
  if s.sp ≥ s.cfg.dcap then .next (s.raise (.stackError .data .overflow))
  else .next ((s.dPush (litValue mag shift)).commit (s.eip + 1))

/-- LIT.ADD mag, shift (R91): modulo 2^64, no fault, no array touched. -/
def execLitAdd (mag : BitVec 12) (shift : BitVec 2) (s : State) : Result :=
  .next (({ s with t := s.t + litValue mag shift } : State).commit (s.eip + 1))

end Sys2Proof.Machine
end

