-- ==== Sys2Proof/Machine/Dispatch.lean ====
section
/-! DEFINITION. One arm per instruction (spec 70_reset_and_hazards.md R263). -/

namespace Sys2Proof.Machine

def exec (i : Instr) (s : State) : Host.Outcome State Fault Refusal :=
  match i with
  | .halt => Sys2Proof.Machine.execHalt s
  | .jmp target => Sys2Proof.Machine.execJmp target s
  | .zeroBranch target => Sys2Proof.Machine.execZeroBranch target s
  | .call target => Sys2Proof.Machine.execCall target s
  | .litPush mag shift => Sys2Proof.Machine.execLitPush mag shift s
  | .litAdd mag shift => Sys2Proof.Machine.execLitAdd mag shift s
  | .aluIn f => Sys2Proof.Machine.execAluIn f s
  | .aluSwap f => Sys2Proof.Machine.execAluSwap f s
  | .aluNToT f => Sys2Proof.Machine.execAluNToT f s
  | .aluAdd f => Sys2Proof.Machine.execAluAdd f s
  | .aluAnd f => Sys2Proof.Machine.execAluAnd f s
  | .aluOr f => Sys2Proof.Machine.execAluOr f s
  | .aluXor f => Sys2Proof.Machine.execAluXor f s
  | .aluMul f => Sys2Proof.Machine.execAluMul f s
  | .aluNot f => Sys2Proof.Machine.execAluNot f s
  | .aluEq f => Sys2Proof.Machine.execAluEq f s
  | .aluLt f => Sys2Proof.Machine.execAluLt f s
  | .aluULt f => Sys2Proof.Machine.execAluULt f s
  | .aluShr f => Sys2Proof.Machine.execAluShr f s
  | .aluShl f => Sys2Proof.Machine.execAluShl f s
  | .aluLoad f => Sys2Proof.Machine.execAluLoad f s
  | .aluIoRead f => Sys2Proof.Machine.execAluIoRead f s

end Sys2Proof.Machine
end

