-- ==== Sys2Proof/Machine/Step.lean ====
section
/-! DEFINITION. One step of the core (spec 70_reset_and_hazards.md R263), and the placing of an instruction where the next step
fetches it. -/

namespace Sys2Proof.Machine

/-- One step (R263): fetch (R44), the halt test and decoding (R68), then the instruction's own rule. With `STATUS` halted or
faulted "there is no step" (notes/assumptions/10.md). -/
def step (s : State) : Host.Outcome State Fault Refusal :=
  match s.status with
  | .halted => .fault .runHalted
  | .faulted k => .fault (.runFaulted k)
  | .running =>
    match s.fetch with
    | .error k => .next (s.raise k)
    | .ok w => exec (decode w) s

/-- The word `w mod 2^nbits` in the cell at `EIP`, the bits above `nbits` zero. Nothing else changes: from `State.reset` the
very next step runs it (notes/assumptions/15.md). -/
def State.withFetchWord (s : State) (nbits w : Nat) : State :=
  s.setCell s.eip (BitVec.ofNat 16 (w % 2 ^ nbits))

end Sys2Proof.Machine
end

