-- ==== Sys2Proof/Machine/LiteralEncoder.lean ====
section
/-! DEFINITION. The `LITERAL n` pseudo-instruction (spec 40_literal.md R94). It belongs to the assembler side: the core sees only
the instructions it expands to. -/

namespace Sys2Proof.Machine

/-- The word `invert`, `T->IN ~IN ->T` (44_words.md R211). -/
def wordInvert : Instr := .aluNot { ret := false, inp := .t, out := .t, rd := .zero, dd := .zero }

/-- The word `lshift`, `N->IN IN<<T ->T d-1` (44_words.md R211). -/
def wordLshift : Instr := .aluShl { ret := false, inp := .n, out := .t, rd := .zero, dd := .minus1 }

/-- One literal instruction with chunk `c` at index `i`: "push new" for the first chunk, "add to top" for every later one
(R94 step 5). -/
def chunkInstr (first : Bool) (c i : Nat) : Instr :=
  if first then .litPush (BitVec.ofNat 12 c) (BitVec.ofNat 2 i) else .litAdd (BitVec.ofNat 12 c) (BitVec.ofNat 2 i)

/-- The loop of R94 step 5 over the chunks `k-1` down to 0; zero chunks are left out. -/
def chunkLoop : Nat → Nat → Bool → List Instr
  | 0, _, first => if first then [chunkInstr true 0 0] else []
  | k + 1, acc, first =>
    let c := acc >>> (12 * k) % 4096
    if c = 0 then chunkLoop k acc first else chunkInstr first c k :: chunkLoop k acc false

/-- The chunks of a value below 2^48, most significant first (R94 step 5 and the closing line of `encmag`). -/
def encChunks (acc : Nat) (first : Bool) : List Instr := chunkLoop ((bitlen acc + 11) / 12) acc first

/-- `encmag(acc)` for `acc < 2^63` (R94). Its recursive call is on `acc >> 48 <= 32767`, which does not split again. -/
def encMag (acc : Nat) : List Instr :=
  if acc ≥ 2 ^ 48 then
    encChunks (acc >>> 48) true ++ [.litPush 48 0, wordLshift] ++ encChunks (acc % 2 ^ 48) false
  else encChunks acc true

/-- `enc(n)` for a signed 64-bit integer given by its bits (R94). -/
def encLiteral (n : StackCell) : List Instr :=
  if n = 0 then [.litPush 0 0]
  else if n.msb then encMag (~~~n).toNat ++ [wordInvert]
  else encMag n.toNat

/-- The instructions of a list one after another, without fetching: it stops where one gives no next state or leaves the core
not running. -/
def execAll : List Instr → State → Result
  | [], s => .next s
  | i :: is, s =>
    match exec i s with
    | .next s' => if s'.status = .running then execAll is s' else .next s'
    | .fault r => .fault r
    | .refused r => .refused r

end Sys2Proof.Machine
end

