-- ==== Sys2Proof/Machine/Assembler.lean ====
section
/-! DEFINITION. The source's assembler notation (spec 30_encoding.md R73 to R75), the standard words (44_words.md R211, R212), and
the pseudo-instructions of a program (R76). It belongs to the assembler side: the core sees "flat instruction sequences" only
(R76). -/

namespace Sys2Proof.Machine

/-! ## Tokens -/

/-- The tokens between blanks, `acc` the token being read, in reverse. -/
def splitBlanks : List Char → List Char → List String
  | [], acc => if acc.isEmpty then [] else [String.ofList acc.reverse]
  | c :: cs, acc =>
    if c.isWhitespace then
      if acc.isEmpty then splitBlanks cs [] else String.ofList acc.reverse :: splitBlanks cs []
    else splitBlanks cs (c :: acc)

/-- A definition's text is "a sequence of whitespace-separated tokens" (R73). Which characters are white space is the model's choice:
notes/assumptions/18.md. -/
def tokensOf (text : String) : List String := splitBlanks text.toList []

/-- What a token resolves to (R73). -/
inductive TokenMeaning where
  /-- an inert mnemonic, or a bare integer: OR-combine and continue -/
  | inert (pattern : MemCell)
  /-- a terminal mnemonic: OR-combine and emit -/
  | terminal (pattern : MemCell)
  /-- a word of the Dictionary, by its instruction sequence -/
  | word (sequence : List MemCell)
deriving DecidableEq, Repr

/-- The pattern of an input-mux mnemonic. Every pattern of R74 is taken from the layout record (R79). -/
def inputPattern (m : InMux) : MemCell := placeAt (codeOf Layout.spec.inputs m) Layout.spec.inp

/-- The pattern of an operation mnemonic. -/
def opPattern (o : AluOp) : MemCell := placeAt (codeOf Layout.spec.ops o) Layout.spec.op

/-- The pattern of an output-mux mnemonic. -/
def outputPattern (m : OutMux) : MemCell := placeAt (codeOf Layout.spec.outputs m) Layout.spec.out

/-- The pattern of a data-stack delta mnemonic. -/
def dataPattern (d : Delta) : MemCell := placeAt (codeOf Layout.spec.deltas d) Layout.spec.dd

/-- The pattern of a return-stack delta mnemonic. -/
def returnPattern (d : Delta) : MemCell := placeAt (codeOf Layout.spec.deltas d) Layout.spec.rd

/-- The pattern of a non-literal terminal. -/
def classPattern (c : InstrClass) : MemCell := placeAt (codeOf Layout.spec.classes c) Layout.spec.cls

/-- The mnemonics of the ALU operand fields (R74, upper part). -/
def operandMnemonics : List (String × TokenMeaning) :=
  [ ("N->IN", .inert (inputPattern .n))
  , ("T->IN", .inert (inputPattern .t))
  , ("[T]->IN", .inert (inputPattern .memT))
  , ("R->IN", .inert (inputPattern .r))
  , ("->T", .inert (outputPattern .t))
  , ("->R", .inert (outputPattern .r))
  , ("->[T]", .inert (outputPattern .memT))
  , ("->io[T]", .inert (outputPattern .ioT))
  , ("d+1", .inert (dataPattern .plus1))
  , ("d-2", .inert (dataPattern .minus2))
  , ("d-1", .inert (dataPattern .minus1))
  , ("r+1", .inert (returnPattern .plus1))
  , ("r-2", .inert (returnPattern .minus2))
  , ("r-1", .inert (returnPattern .minus1))
  , ("RET", .inert (placeAt 1#1 Layout.spec.ret)) ]

/-- The mnemonics of the sixteen operations (R67, R74). -/
def operationMnemonics : List (String × TokenMeaning) :=
  [ ("IN", .inert (opPattern .passIn))
  , ("T<->N", .inert (opPattern .swapTN))
  , ("N->T", .inert (opPattern .copyNToT))
  , ("IN+N", .inert (opPattern .add))
  , ("IN&N", .inert (opPattern .and))
  , ("IN|N", .inert (opPattern .or))
  , ("IN^N", .inert (opPattern .xor))
  , ("IN*N", .inert (opPattern .mul))
  , ("~IN", .inert (opPattern .not))
  , ("IN==N", .inert (opPattern .eq))
  , ("N<IN", .inert (opPattern .lt))
  , ("Nu<IN", .inert (opPattern .ult))
  , ("IN>>T", .inert (opPattern .shr))
  , ("IN<<T", .inert (opPattern .shl))
  , ("[IN]", .inert (opPattern .load))
  , ("io[IN]", .inert (opPattern .ioRead)) ]

/-- The mnemonics of the literal fields and the terminals (R74). -/
def terminalMnemonics : List (String × TokenMeaning) :=
  [ ("sh1", .inert (placeAt 1#2 Layout.spec.shift))
  , ("sh2", .inert (placeAt 2#2 Layout.spec.shift))
  , ("sh3", .inert (placeAt 3#2 Layout.spec.shift))
  , ("+imm", .inert (placeAt 1#1 Layout.spec.add))
  , ("imm", .terminal (placeAt 1#1 Layout.spec.lit))
  , ("ubranch", .terminal (classPattern .jump))
  , ("0branch", .terminal (classPattern .zeroBranch))
  , ("scall", .terminal (classPattern .call))
  , ("alu", .terminal (classPattern .alu)) ]

/-- The field-mnemonic table (R74). -/
def fieldTable : List (String × TokenMeaning) := operandMnemonics ++ operationMnemonics ++ terminalMnemonics

/-- The value of a string of decimal digits, `acc` the value of the digits before it. -/
def digitsValue : List Char → Nat → Option Nat
  | [], acc => some acc
  | c :: cs, acc => if c.isDigit then digitsValue cs (10 * acc + (c.toNat - 48)) else none

/-- A bare token that is a "parseable non-negative integer literal <= 4095" (R75). That it is written in decimal digits, as the
example of R75 is, is the model's choice: notes/assumptions/18.md. -/
def bareInteger (tok : String) : Option Nat :=
  if tok.isEmpty then none
  else
    match digitsValue tok.toList 0 with
    | some n => if n ≤ 4095 then some n else none
    | none => none

/-! ## The builder -/

/-- The Dictionary: from word names to instruction sequences (R8), in the order of definition. -/
abbrev Dictionary := List (String × List MemCell)

/-- The errors of the assembler side; the core never raises one (R239). That an error records the token or name it is about is the
model's choice (DESIGN CHOICE, notes/assumptions/22.md). -/
inductive BuildError where
  /-- a token of a word definition that cannot be resolved (R73) -/
  | definitionError (token : String)
  /-- a word of a program that the Dictionary does not hold (R239) -/
  | unknownWordError (name : String)
deriving DecidableEq, Repr

/-- Each token is resolved "against (in order) the field-mnemonic table, the Dictionary-so-far, then as a bare small integer
literal" (R73). Where the Dictionary holds a name twice the earlier definition is meant: the spec does not say which, DESIGN
CHOICE, notes/assumptions/20.md. -/
def resolve (dict : Dictionary) (tok : String) : Option TokenMeaning :=
  match fieldTable.lookup tok with
  | some m => some m
  | none =>
    match dict.lookup tok with
    | some sequence => some (.word sequence)
    | none => (bareInteger tok).map (fun n => .inert (BitVec.ofNat 16 n))

/-- The builder's algorithm for one definition, left to right, with `acc` the accumulator (R73; 90_conflicts.md C10). Two points the
spec does not state are the model's choice: an accumulator that is not 0 at the end is dropped (DESIGN CHOICE,
notes/assumptions/18.md), and a word whose sequence is empty is spliced as a multi-instruction word is, so it adds
nothing and the accumulator stays (DESIGN CHOICE, notes/assumptions/21.md). -/
def assemble (dict : Dictionary) : MemCell → List String → Except BuildError (List MemCell)
  | _, [] => .ok []
  | acc, tok :: toks =>
    match resolve dict tok with
    | some (.inert p) => assemble dict (acc ||| p) toks
    | some (.terminal p) => (assemble dict 0 toks).map (fun out => (acc ||| p) :: out)
    | some (.word [x]) => (assemble dict 0 toks).map (fun out => (acc ||| x) :: out)
    | some (.word xs) => (assemble dict acc toks).map (fun out => xs ++ out)
    | none => .error (.definitionError tok)

/-- Each definition, a name and its text, is resolved against the Dictionary so far (R73). A definition is added at the end also
where its name is there already; `resolve` then means the earlier one (DESIGN CHOICE, notes/assumptions/20.md). -/
def buildDictionary : Dictionary → List (String × String) → Except BuildError Dictionary
  | dict, [] => .ok dict
  | dict, (name, text) :: defs =>
    match assemble dict 0 (tokensOf text) with
    | .ok xs => buildDictionary (dict ++ [(name, xs)]) defs
    | .error e => .error e

/-! ## The standard words -/

/-- The single-instruction words, by their fields (R211). -/
def primitiveDefinitions : List (String × String) :=
  [ ("noop", "T->IN IN ->T alu")
  , ("dup", "T->IN IN ->T d+1 alu")
  , ("drop", "N->IN IN ->T d-1 alu")
  , ("swap", "N->IN T<->N ->T alu")
  , ("over", "N->IN IN ->T d+1 alu")
  , ("nip", "T->IN IN ->T d-1 alu")
  , ("+", "T->IN IN+N ->T d-1 alu")
  , ("over+", "T->IN IN+N ->T alu")
  , ("and", "T->IN IN&N ->T d-1 alu")
  , ("or", "T->IN IN|N ->T d-1 alu")
  , ("xor", "T->IN IN^N ->T d-1 alu")
  , ("*", "T->IN IN*N ->T d-1 alu")
  , ("invert", "T->IN ~IN ->T alu")
  , ("=", "T->IN IN==N ->T d-1 alu")
  , ("<", "T->IN N<IN ->T d-1 alu")
  , ("u<", "T->IN Nu<IN ->T d-1 alu")
  , ("rshift", "N->IN IN>>T ->T d-1 alu")
  , ("lshift", "N->IN IN<<T ->T d-1 alu")
  , ("@", "[T]->IN IN ->T alu")
  , ("!", "N->IN IN ->[T] d-2 alu")
  , (">r", "T->IN IN ->R r+1 d-1 alu")
  , ("r>", "R->IN IN ->T r-1 d+1 alu")
  , ("r@", "R->IN IN ->T d+1 alu")
  , ("exit", "T->IN IN ->T r-1 RET alu")
  , ("io@", "T->IN io[IN] ->T alu")
  , ("io!", "N->IN IN ->io[T] d-2 alu")
  , ("1+", "1 +imm imm") ]

/-- The composite words, spliced from earlier ones (R212); 241 is 0xF1 and 224 is 0xE0. -/
def compositeDefinitions : List (String × String) :=
  [ ("rot", ">r swap r> swap")
  , ("negate", "invert 1+")
  , ("-", "negate +")
  , ("tuck", "swap over")
  , ("2dup", "over over")
  , ("emit", "241 imm io!")
  , ("key", "224 imm io@") ]

/-- The dictionary of R211 and R212. -/
def stdDictionary : Except BuildError Dictionary :=
  buildDictionary [] (primitiveDefinitions ++ compositeDefinitions)

/-! ## A program -/

/-- The word `exit`, `T->IN IN ->T r-1 RET` (R211), the "designated 'return/exit' encoding" (R76 (c), 92_eei_decisions.md D33). -/
def wordExit : Instr := .aluIn { ret := true, inp := .t, out := .t, rd := .minus1, dd := .zero }

/-- The two kinds of pseudo-instruction (R76). -/
inductive Pseudo where
  /-- (a) a number, by its 64 bits -/
  | number (n : StackCell)
  /-- (b) a word of the Dictionary -/
  | word (name : String)
deriving DecidableEq, Repr

/-- The instruction sequence a pseudo-instruction expands to (R76 (a), (b)). -/
def expand (dict : Dictionary) : Pseudo → Except BuildError (List MemCell)
  | .number n => .ok ((encLiteral n).map encode)
  | .word name =>
    match dict.lookup name with
    | some xs => .ok xs
    | none => .error (.unknownWordError name)

/-- The sequences of a list of pseudo-instructions, one after another. -/
def expandAll (dict : Dictionary) : List Pseudo → Except BuildError (List MemCell)
  | [] => .ok []
  | p :: ps =>
    match expand dict p with
    | .ok xs => (expandAll dict ps).map (fun out => xs ++ out)
    | .error e => .error e

/-- The end of a compiled program: the halt sentinel is appended unless the last instruction is the `exit` encoding (R76 (c)). With no
instruction emitted it is appended: the last instruction "is not already" that encoding. -/
def finishProgram (words : List MemCell) : List MemCell :=
  if words.getLast? = some (encode wordExit) then words else words ++ [0]

/-- The flat instruction sequence of a program (R76). -/
def compileProgram (dict : Dictionary) (ps : List Pseudo) : Except BuildError (List MemCell) :=
  (expandAll dict ps).map finishProgram

end Sys2Proof.Machine
end

