-- ==== Sys2Proof/Safety.lean ====
section
/-! DEFINITION. What statements call a sound state, and the ends of a run (spec 00_scope.md R5, 10_state.md R12, R14, R28;
70_reset_and_hazards.md R264). -/

namespace Sys2Proof

open Machine

/-- The bounds the spec puts on every state of a run: the parameters' constraints (R5), the arrays of `DCAP` and `RCAP` cells
with `0 <= SP <= DCAP` and `0 <= RSP <= RCAP` (R12, R14), and a memory in canonical form inside `0 .. MEM_CELLS-1` (R17). -/
structure Inv (s : State) : Prop where
  config : s.cfg.wf
  dsLength : s.ds.length = s.cfg.dcap
  rsLength : s.rs.length = s.cfg.rcap
  spBound : s.sp ≤ s.cfg.dcap
  rspBound : s.rsp ≤ s.cfg.rcap
  memCanonical : s.mem.wf
  memInside : ∀ c ∈ s.mem, c.1 < 2 * s.cfg.memCells

/-- A launch the spec allows (R5, R28): the arrays have their sizes, the initial depths their bounds, the image its place. -/
structure LaunchOk (p : Launch) : Prop where
  config : p.cfg.wf
  dsLength : p.initDS.length = p.cfg.dcap
  rsLength : p.initRS.length = p.cfg.rcap
  spBound : p.sp ≤ p.cfg.dcap
  rspBound : p.rsp ≤ p.cfg.rcap
  memCanonical : p.initMem.wf
  memInside : ∀ c ∈ p.initMem, c.1 < 2 * p.cfg.memCells

/-- A run has ended (R264). -/
def Ended (s : State) : Prop := s.status ≠ .running

/-- A run has ended by a fault, the abnormal end (R264). -/
def Faulted (s : State) : Prop := ∃ k, s.status = .faulted k

/-- The states a run from `s` passes through: steps of the core, and the host's two actions between them (R263, R265). -/
inductive Reaches : State → State → Prop where
  | refl (s : State) : Reaches s s
  | step {s t u : State} : Reaches s t → Machine.step t = .next u → Reaches s u
  | append {s t u : State} (bytes : List Byte) : Reaches s t → t.hostAppend bytes = some u → Reaches s u
  | close {s t u : State} : Reaches s t → t.hostClose = some u → Reaches s u

end Sys2Proof
end

