-- ==== Sys2Proof/Certificates/Slice0/Obligations.lean ====
section
/-! DEFINITION. The statements for the provers. The first part spells out, in the spec's own terms and without the operations the
meanings are built from, what an ALU instruction needs and what it leaves (spec 42_alu.md R131, R132). -/

namespace Sys2Proof.Claim

open Sys2Proof Sys2Proof.Machine

/-- Element `i` of a stack array. -/
abbrev at' (l : List StackCell) (i : Nat) : StackCell := l.getD i 0

/-- `N0 = DS[SP-1]` (R12). -/
abbrev nOf (s : State) : StackCell := at' s.ds (s.sp - 1)

/-- `IN` by the input mux (R134 to R137). -/
abbrev inOf (f : AluFields) (s : State) : StackCell :=
  match f.inp with
  | .n => nOf s
  | .t => s.t
  | .memT => (s.mem.readCell s.t.toNat).setWidth 64
  | .r => s.r

/-- The operations that have `N` as an operand: codes 1 to 7 and 9 to 11 (R133). -/
abbrev opReadsN (op : AluOp) : Prop :=
  op ∈ [AluOp.swapTN, .copyNToT, .add, .and, .or, .xor, .mul, .eq, .lt, .ult]

/-- Both deltas stay inside their arrays: rows 2 and 3 of R132 pass. -/
abbrev DeltasFit (f : AluFields) (s : State) : Prop :=
  (f.dd = .plus1 → s.sp < s.cfg.dcap) ∧ (f.dd = .minus1 → 1 ≤ s.sp) ∧ (f.dd = .minus2 → 2 ≤ s.sp) ∧
  (f.rd = .plus1 → s.rsp < s.cfg.rcap) ∧ (f.rd = .minus1 → 1 ≤ s.rsp) ∧ (f.rd = .minus2 → 2 ≤ s.rsp)

/-- The input and output muxes meet an operand and an address they may use: rows 1 (for `in = N`), 4, 7 and 8 of R132 pass. -/
abbrev MuxesReach (f : AluFields) (s : State) : Prop :=
  (f.inp = .n → 1 ≤ s.sp) ∧
  (f.inp = .memT → s.t.toNat < s.cfg.memCells) ∧
  (f.out = .memT → s.t.toNat < s.cfg.memCells) ∧
  (f.out = .ioT → s.t = 0xF0 ∨ s.t = 0xF1 ∨ s.cfg.unsupportedIoFatal = false)

/-- The state with `STATUS` faulted and nothing else changed (R236). -/
abbrev faultedWith (s : State) (k : CoreFault) : State := { s with status := .faulted k }

/-- Every byte of memory but the two of cell `a` reads as before. -/
abbrev SameMemoryBut (a : Nat) (s t : State) : Prop :=
  ∀ b, b ≠ 2 * a → b ≠ 2 * a + 1 → t.mem.readByte b = s.mem.readByte b

/-- What an ALU instruction with fields `f` leaves in `t`, from `s`, when its operation yields `out` and has left `t1` in `T` and
`ds1` in `DS` (phases 4 to 7 of R131, field by field). `INQ` and the model's counter are said beside it. -/
structure AluLeaves (f : AluFields) (s t : State) (out t1 : StackCell) (ds1 : List StackCell) : Prop where
  sp : (t.sp : Int) = s.sp + deltaValue f.dd
  rsp : (t.rsp : Int) = s.rsp + deltaValue f.rd
  top : t.t = if f.out = .t then out else
    match f.dd with
    | .zero => t1
    | .plus1 => t1
    | .minus1 => at' ds1 (s.sp - 1)
    | .minus2 => at' ds1 (s.sp - 2)
  ds : t.ds = if f.dd = .plus1 then ds1.set s.sp t1 else ds1
  ret : t.r = if f.out = .r then out else
    match f.rd with
    | .zero => s.r
    | .plus1 => s.r
    | .minus1 => at' s.rs (s.rsp - 1)
    | .minus2 => at' s.rs (s.rsp - 2)
  rs : t.rs = if f.rd = .plus1 then s.rs.set s.rsp s.r else s.rs
  stored : f.out = .memT → t.mem.readCell s.t.toNat = out.setWidth 16 ∧ SameMemoryBut s.t.toNat s t
  memKept : f.out ≠ .memT → t.mem = s.mem
  outq : t.outq = if f.out ≠ .ioT then s.outq else
    if s.t = 0xF1 then s.outq ++ [out.setWidth 8] else if s.t = 0xF0 then s.outq ++ multiBytes out else s.outq
  eip : t.eip = if f.ret then s.r else s.eip + 1
  cycles : t.cycles = s.cycles + 1
  status : t.status = s.status
  cfg : t.cfg = s.cfg
  inClosed : t.inClosed = s.inClosed

/-- The input side is untouched. -/
abbrev InputKept (s t : State) : Prop := t.inq = s.inq ∧ t.freeReads = s.freeReads

/-- `i` completes from `s`, leaves what R131 says for `out`, `t1`, `ds1`, and takes no input. -/
abbrev Completes (i : Instr) (f : AluFields) (s : State) (out t1 : StackCell) (ds1 : List StackCell) : Prop :=
  ∃ t, exec i s = .next t ∧ AluLeaves f s t out t1 ds1 ∧ InputKept s t

/-- The shift rules' result (R152, R153): exact for counts 0 to 63, `SHIFT_OVER` above. -/
abbrev shiftRule (c : Config) (dir : ShiftDir) (v count : StackCell) : StackCell :=
  if count.toNat < 64 then
    (match dir with
     | .left => BitVec.ofNat 64 (v.toNat * 2 ^ count.toNat)
     | .right => BitVec.ofNat 64 (v.toNat / 2 ^ count.toNat))
  else
    match c.shiftOver with
    | .constant k => k
    | .free => freeShift dir v count

/-- The check table of R132, rows 1 to 9 (rows 2 and 3 each as overflow and underflow): the condition that faults, the fault. -/
def checkTable (op : AluOp) (f : AluFields) (s : State) : List (Bool × CoreFault) :=
  [ (decide ((f.inp = .n ∨ opReadsN op) ∧ s.sp = 0), .stackError .data .underflow)
  , (decide (f.dd = .plus1 ∧ s.cfg.dcap ≤ s.sp), .stackError .data .overflow)
  , (decide ((f.dd = .minus1 ∧ s.sp < 1) ∨ (f.dd = .minus2 ∧ s.sp < 2)), .stackError .data .underflow)
  , (decide (f.rd = .plus1 ∧ s.cfg.rcap ≤ s.rsp), .stackError .ret .overflow)
  , (decide ((f.rd = .minus1 ∧ s.rsp < 1) ∨ (f.rd = .minus2 ∧ s.rsp < 2)), .stackError .ret .underflow)
  , (decide (f.inp = .memT ∧ s.cfg.memCells ≤ s.t.toNat), .capacityError s.t)
  , (decide (op = .load ∧ s.cfg.memCells ≤ (inOf f s).toNat), .capacityError (inOf f s))
  , (decide (op = .ioRead ∧ inOf f s ≠ 0xE0 ∧ s.cfg.unsupportedIoFatal = true), .unsupportedOperation .read (inOf f s))
  , (decide (f.out = .memT ∧ s.cfg.memCells ≤ s.t.toNat), .capacityError s.t)
  , (decide (f.out = .ioT ∧ ¬(s.t = 0xF0 ∨ s.t = 0xF1) ∧ s.cfg.unsupportedIoFatal = true),
      .unsupportedOperation .write s.t)
  , (decide (op = .ioRead ∧ inOf f s = 0xE0 ∧ s.inq = [] ∧ s.inClosed = true), .ioError) ]

/-- "the first that fails" (R132). -/
def firstFailing (op : AluOp) (f : AluFields) (s : State) : Option CoreFault :=
  ((checkTable op f s).find? (fun row => row.1)).map (fun row => row.2)

/-- The instruction needs a byte that is not there yet (R132, last paragraph). -/
abbrev needsByte (op : AluOp) (f : AluFields) (s : State) : Prop :=
  op = .ioRead ∧ inOf f s = 0xE0 ∧ s.inq = [] ∧ s.inClosed = false

/-- The sixteen operations in the order of their codes (R67). -/
def opTable : List AluOp :=
  [.passIn, .swapTN, .copyNToT, .add, .and, .or, .xor, .mul, .not, .eq, .lt, .ult, .shr, .shl, .load, .ioRead]

/-- The input-mux names in the order of their codes (R65). -/
def inTable : List InMux := [.n, .t, .memT, .r]

/-- The output-mux names in the order of their codes (R66). -/
def outTable : List OutMux := [.t, .r, .memT, .ioT]

/-- The deltas in the order of their codes (R69). -/
def deltaTable : List Delta := [.zero, .plus1, .minus2, .minus1]

/-- `w[lo+n-1 : lo]` as an unsigned integer (R6). -/
abbrev bitsAt (w : MemCell) (lo n : Nat) : Nat := w.toNat / 2 ^ lo % 2 ^ n

/-- The rows of spec/opcode_table.json but `HALT`, as (mask, match) (R80). -/
def tableRows : List (MemCell × MemCell) :=
  [(0xE000, 0x0000), (0xE000, 0x2000), (0xE000, 0x4000), (0xC000, 0x8000), (0xC000, 0xC000)] ++
    (List.range 16).map (fun k => (0xE0F0, 0x6000 + BitVec.ofNat 16 (16 * k)))

/-- The declared net change of the data-stack depth (95_test_vectors.md Q3). -/
def dataEffect : Instr → Int
  | .halt | .jmp _ | .call _ | .litAdd _ _ => 0
  | .zeroBranch _ => -1
  | .litPush _ _ => 1
  | .aluIn f | .aluSwap f | .aluNToT f | .aluAdd f | .aluAnd f | .aluOr f | .aluXor f | .aluMul f
  | .aluNot f | .aluEq f | .aluLt f | .aluULt f | .aluShr f | .aluShl f | .aluLoad f | .aluIoRead f => deltaValue f.dd

/-- The declared net change of the return-stack depth (95_test_vectors.md Q3). -/
def returnEffect : Instr → Int
  | .halt | .jmp _ | .litAdd _ _ | .zeroBranch _ | .litPush _ _ => 0
  | .call _ => 1
  | .aluIn f | .aluSwap f | .aluNToT f | .aluAdd f | .aluAnd f | .aluOr f | .aluXor f | .aluMul f
  | .aluNot f | .aluEq f | .aluLt f | .aluULt f | .aluShr f | .aluShl f | .aluLoad f | .aluIoRead f => deltaValue f.rd

/-- The name of an input-mux source (R74). -/
def inputName : InMux → String
  | .n => "N->IN"
  | .t => "T->IN"
  | .memT => "[T]->IN"
  | .r => "R->IN"

/-- The name of an output-mux target (R74). -/
def outputName : OutMux → String
  | .t => "->T"
  | .r => "->R"
  | .memT => "->[T]"
  | .ioT => "->io[T]"

/-- The name of an operation (R67). -/
def opName : AluOp → String
  | .passIn => "IN"
  | .swapTN => "T<->N"
  | .copyNToT => "N->T"
  | .add => "IN+N"
  | .and => "IN&N"
  | .or => "IN|N"
  | .xor => "IN^N"
  | .mul => "IN*N"
  | .not => "~IN"
  | .eq => "IN==N"
  | .lt => "N<IN"
  | .ult => "Nu<IN"
  | .shr => "IN>>T"
  | .shl => "IN<<T"
  | .load => "[IN]"
  | .ioRead => "io[IN]"

/-- The names of a data-stack delta: none for 0 (R72). -/
def dataDeltaNames : Delta → List String
  | .zero => []
  | .plus1 => ["d+1"]
  | .minus2 => ["d-2"]
  | .minus1 => ["d-1"]

/-- The names of a return-stack delta: none for 0 (R72). -/
def returnDeltaNames : Delta → List String
  | .zero => []
  | .plus1 => ["r+1"]
  | .minus2 => ["r-2"]
  | .minus1 => ["r-1"]

/-- The tokens of an ALU instruction, in the order of R72, with the terminal `alu` (R74). -/
def aluTokens (op : AluOp) (f : AluFields) : List String :=
  [inputName f.inp, opName op, outputName f.out] ++ dataDeltaNames f.dd ++ returnDeltaNames f.rd ++
    (if f.ret then ["RET"] else []) ++ ["alu"]

/-- The literal-shift mnemonics with their index (R74). -/
def shiftTokens : List (List String × BitVec 2) := [([], 0), (["sh1"], 1), (["sh2"], 2), (["sh3"], 3)]

/-- The word `w` completes from `s` and leaves these logical stacks (R29, R211). -/
abbrev Leaves (w : MemCell) (s : State) (d r : List StackCell) : Prop :=
  ∃ t, exec (decode w) s = .next t ∧ t.dstack = d ∧ t.rstack = r

end Sys2Proof.Claim

open Sys2Proof Sys2Proof.Machine Sys2Proof.Claim

/-! ## Encoding -/

/-- The decoding table of 95_test_vectors.md 2.1: each printed word decodes to the printed instruction (R68). -/
def Obligations.PrintedWordsDecode : Prop :=
  ([0x0000, 0x0001, 0x1FFF, 0x2000, 0x2007, 0x4000, 0x5FFF, 0x6000, 0x6400, 0x7FFF, 0x6202, 0x740C, 0x8000, 0xBFFF,
    0xC000, 0xFFFF] : List MemCell).map decode =
  [ .halt, .jmp 1, .jmp 8191, .zeroBranch 0, .zeroBranch 7, .call 0, .call 8191,
    .aluIn { ret := false, inp := .n, out := .t, rd := .zero, dd := .zero },
    .aluIn { ret := false, inp := .t, out := .t, rd := .zero, dd := .zero },
    .aluIoRead { ret := true, inp := .r, out := .ioT, rd := .minus1, dd := .minus1 },
    .aluIn { ret := false, inp := .n, out := .memT, rd := .zero, dd := .minus2 },
    .aluIn { ret := true, inp := .t, out := .t, rd := .minus1, dd := .zero },
    .litPush 0 0, .litPush 0xFFF 3, .litAdd 0 0, .litAdd 0xFFF 3 ]

/-- Decoding is a total function given by the bit fields of the word, and re-encoding gives the word back (R68). -/
def Obligations.DecodeFollowsTheBitFields : Prop :=
  ∀ w : MemCell,
    (w = 0 → decode w = .halt) ∧
    (bitsAt w 15 1 = 1 → decode w = if bitsAt w 14 1 = 1
      then .litAdd (BitVec.ofNat 12 (bitsAt w 0 12)) (BitVec.ofNat 2 (bitsAt w 12 2))
      else .litPush (BitVec.ofNat 12 (bitsAt w 0 12)) (BitVec.ofNat 2 (bitsAt w 12 2))) ∧
    (w ≠ 0 → bitsAt w 15 1 = 0 → bitsAt w 13 2 = 0 → decode w = .jmp (BitVec.ofNat 13 (bitsAt w 0 13))) ∧
    (bitsAt w 15 1 = 0 → bitsAt w 13 2 = 1 → decode w = .zeroBranch (BitVec.ofNat 13 (bitsAt w 0 13))) ∧
    (bitsAt w 15 1 = 0 → bitsAt w 13 2 = 2 → decode w = .call (BitVec.ofNat 13 (bitsAt w 0 13))) ∧
    (bitsAt w 15 1 = 0 → bitsAt w 13 2 = 3 → ∃ op f, decode w = Instr.ofAlu op f ∧
      opTable[bitsAt w 4 4]? = some op ∧ f.ret = (bitsAt w 12 1 == 1) ∧ inTable[bitsAt w 10 2]? = some f.inp ∧
      outTable[bitsAt w 8 2]? = some f.out ∧ deltaTable[bitsAt w 2 2]? = some f.rd ∧
      deltaTable[bitsAt w 0 2]? = some f.dd) ∧
    encode (decode w) = w

/-- Every well-formed instruction, with every operand, is read back from its word and from its two bytes (R61 to R63, R46). -/
def Obligations.DecodeEncodeRoundTrip : Prop :=
  ∀ i : Instr, i.wellFormed = true → decode (encode i) = i ∧ ∀ rest, decodeBytes (encodeBytes i ++ rest) = .ok (i, rest)

/-- Every word decodes to an instruction that has an encoding (R70): nothing is reserved or illegal. -/
def Obligations.EveryWordIsAnInstruction : Prop :=
  ∀ w : MemCell, (decode w).wellFormed = true

/-- The opcode map (R80): 0x0000 matches both HALT and JMP and is HALT; apart from it every word matches exactly one row, and it
is the row of the instruction it decodes to. -/
def Obligations.EveryWordMatchesOneTableRow : Prop :=
  ((0 : MemCell) &&& Instr.halt.tableRow.1 = Instr.halt.tableRow.2 ∧
    (0 : MemCell) &&& (Instr.jmp 0).tableRow.1 = (Instr.jmp 0).tableRow.2 ∧ decode 0 = .halt) ∧
  ∀ w : MemCell, w ≠ 0 →
    (decode w).tableRow ∈ tableRows ∧ ∀ row ∈ tableRows, (w &&& row.1 = row.2 ↔ row = (decode w).tableRow)

/-- The codec's constructors range-check their fields and yield the words of R61 to R63 (R77, R71 (d)). That the error
of a jump names its target field is the model's choice: notes/assumptions/22.md. -/
def Obligations.CodecConstructorsCheckRanges : Prop :=
  (∀ v k add, (∃ w, encodeLiteral v k add = .ok w) ↔ v ≤ 4095 ∧ k ≤ 3) ∧
  (∀ v k add, v ≤ 4095 → k ≤ 3 →
    encodeLiteral v k add = .ok (BitVec.ofNat 16 (0x8000 + (if add then 0x4000 else 0) + 4096 * k + v))) ∧
  (∀ v, encodeJump .jmp v = if v ≤ 8191 then .ok (BitVec.ofNat 16 v) else .error .target) ∧
  (∀ v, encodeJump .zeroBranch v = if v ≤ 8191 then .ok (BitVec.ofNat 16 (0x2000 + v)) else .error .target) ∧
  (∀ v, encodeJump .call v = if v ≤ 8191 then .ok (BitVec.ofNat 16 (0x4000 + v)) else .error .target) ∧
  (∀ m op o d r ret, (∃ w, encodeAlu m op o d r ret = .ok w) ↔ (-2 ≤ d ∧ d ≤ 1) ∧ (-2 ≤ r ∧ r ≤ 1)) ∧
  (∀ m op o d r ret w, encodeAlu m op o d r ret = .ok w →
    ∃ f : AluFields, decode w = Instr.ofAlu op f ∧ f.inp = m ∧ f.out = o ∧ f.ret = ret ∧
      deltaValue f.dd = d ∧ deltaValue f.rd = r)

/-! ## The step -/

/-- A running core whose next two image bytes are a well-formed instruction runs that instruction, with nothing added around it
(R263). That a cell is two bytes of an image is the model's choice (notes/assumptions/1.md); their order is the one R46 gives a
persisted image. -/
def Obligations.StepRunsTheDecodedInstruction : Prop :=
  ∀ (s : State) (i : Instr), s.status = .running → s.eip.toNat < s.cfg.memCells →
    decodeBytes [s.mem.readByte (2 * s.eip.toNat), s.mem.readByte (2 * s.eip.toNat + 1)] = .ok (i, []) →
    i.wellFormed = true → step s = exec i s

/-- The fetch reads the cell at `EIP`, and beyond the memory raises `CapacityError(EIP)` with all other state unchanged (R44). -/
def Obligations.FetchBeyondMemoryFaults : Prop :=
  ∀ s : State, s.status = .running →
    (s.cfg.memCells ≤ s.eip.toNat → step s = .next (faultedWith s (.capacityError s.eip))) ∧
    (s.eip.toNat < s.cfg.memCells → s.mem.readCell s.eip.toNat = 0 → step s = .next { s with status := .halted }) ∧
    (s.eip.toNat < s.cfg.memCells → s.mem.readCell s.eip.toNat ≠ 0 →
      step s = exec (decode (s.mem.readCell s.eip.toNat)) s)

/-- With `STATUS` halted or faulted there is no step, and a run of one or more steps goes nowhere (R19, R263). How the model says
"no step" is its own choice: notes/assumptions/10.md. -/
def Obligations.NoStepAfterTheEnd : Prop :=
  ∀ s : State, Ended s → ∀ k t, core.run (k + 1) s ≠ .next t

/-- A running core either has a next state or is held at a byte read on an empty open stream; there is no other way to have no
step, and no instruction is refused (R263, R246; the outcome of a hold is the model's, notes/assumptions/11.md). -/
def Obligations.RunningCoreStepsUnlessHeld : Prop :=
  ∀ s : State, s.status = .running →
    (∃ t, step s = .next t) ∨
    (step s = .fault .heldForInput ∧ s.inq = [] ∧ s.inClosed = false ∧
      ∃ f, decode (s.mem.readCell s.eip.toNat) = .aluIoRead f ∧ inOf f s = 0xE0)

/-- One step commits, halts or faults; a halt and a fault change `STATUS` alone, so faults are precise (R236, R110). -/
def Obligations.StepCommitsHaltsOrFaults : Prop :=
  ∀ s t : State, s.status = .running → step s = .next t →
    (t.status = .running ∧ t.cycles = s.cycles + 1) ∨
    (s.mem.readCell s.eip.toNat = 0 ∧ s.eip.toNat < s.cfg.memCells ∧ t = { s with status := .halted }) ∨
    (∃ k, t = faultedWith s k)

/-- No instruction reads `CYCLES` (R16) or `OUTQ`: with other values there, the same step happens and the difference stays where
it was. -/
def Obligations.CyclesAndOutputAreNeverRead : Prop :=
  ∀ (s t : State) (c : BitVec 64) (q : List Byte), step s = .next t →
    ∃ more, t.outq = s.outq ++ more ∧
      step { s with cycles := c, outq := q } = .next { t with cycles := c + (t.cycles - s.cycles), outq := q ++ more }

/-- The output stream only grows, the input stream gives up at most its first byte, and no step touches `IN_CLOSED` or the
parameters (R18, R25). -/
def Obligations.StreamsMoveOneWay : Prop :=
  ∀ s t : State, step s = .next t →
    s.outq <+: t.outq ∧ (t.inq = s.inq ∨ ∃ b, s.inq = b :: t.inq) ∧ t.inClosed = s.inClosed ∧ t.cfg = s.cfg

/-- Only an ALU instruction with output mux `[T]` writes memory, and only the cell at `T0`; only one with output mux `io[T]` writes
the output stream (R40, R50): memory cell 0xF1 and I/O address 0xF1 are distinct. -/
def Obligations.OnlyTheOutputMuxWritesOutside : Prop :=
  ∀ (i : Instr) (s t : State), exec i s = .next t →
    (t.mem = s.mem ∨ ∃ op f, i = Instr.ofAlu op f ∧ f.out = .memT ∧ s.t.toNat < s.cfg.memCells ∧
      SameMemoryBut s.t.toNat s t ∧ t.outq = s.outq) ∧
    (t.outq = s.outq ∨ ∃ op f, i = Instr.ofAlu op f ∧ f.out = .ioT ∧ t.mem = s.mem)

/-- Stack-effect conformance (R162, R163; 95_test_vectors.md Q3): an instruction that commits changes the two depths by its
declared deltas. -/
def Obligations.DepthsChangeByTheDeclaredDeltas : Prop :=
  ∀ (i : Instr) (s t : State), s.status = .running → exec i s = .next t → t.status = .running →
    (t.sp : Int) = s.sp + dataEffect i ∧ (t.rsp : Int) = s.rsp + returnEffect i

/-! ## Invariants and launch -/

/-- Every step keeps the bounds of both stacks, the sizes of both arrays, the parameters' constraints and the memory's canonical
form, from every state that has them (R5, R12, R14, R17). -/
def Obligations.StepKeepsTheInvariant : Prop :=
  ∀ s t : State, Inv s → step s = .next t → Inv t

/-- Every run, with the host's actions between the steps, keeps them (R263, R265). -/
def Obligations.RunsKeepTheInvariant : Prop :=
  ∀ s t : State, Inv s → Reaches s t → Inv t

/-- The reset state, and every launch the spec allows, has them (R28). The sizes of the reset state are the model's choice:
notes/assumptions/4.md and notes/assumptions/5.md. -/
def Obligations.LaunchMeetsTheInvariant : Prop :=
  Inv State.reset ∧ ∀ p : Launch, LaunchOk p → Inv (State.launch p)

/-- A launch puts every state element at the value of R28's table, whatever the parameters. -/
def Obligations.LaunchSetsEveryElement : Prop :=
  ∀ p : Launch, (State.launch p).mem = p.initMem ∧ (State.launch p).eip = p.entry ∧ (State.launch p).sp = p.sp ∧
    (State.launch p).rsp = p.rsp ∧ (State.launch p).t = p.initT ∧ (State.launch p).r = p.initR ∧
    (State.launch p).ds = p.initDS ∧ (State.launch p).rs = p.initRS ∧ (State.launch p).cycles = 0 ∧
    (State.launch p).inq = p.inq ∧ (State.launch p).inClosed = p.inClosed ∧ (State.launch p).outq = [] ∧
    (State.launch p).status = .running ∧ State.reset.eip = 0 ∧ State.reset.sp = 0 ∧ State.reset.rsp = 0

/-- The halt-only image: from reset with nothing loaded the first step halts and changes nothing else (95_test_vectors.md Q2). That
unloaded memory reads as 0 is the model's choice: notes/assumptions/2.md. -/
def Obligations.EmptyImageHaltsAtOnce : Prop :=
  step State.reset = .next { State.reset with status := .halted }

/-! ## Halt, control transfer, literals -/

/-- `HALT` (R110). -/
def Obligations.HaltChangesStatusAlone : Prop :=
  (∀ s : State, exec .halt s = .next { s with status := .halted }) ∧
  ∀ s : State, s.status = .running → s.eip.toNat < s.cfg.memCells → s.mem.readCell s.eip.toNat = 0 →
    step s = .next { s with status := .halted }

/-- `JMP` (R111): sets `EIP` and counts; an out-of-range target faults at the next fetch, not here. -/
def Obligations.JumpSetsEipAlone : Prop :=
  ∀ (target : BitVec 13) (s : State),
    exec (.jmp target) s = .next { s with eip := target.setWidth 64, cycles := s.cycles + 1 } ∧
    (s.status = .running → s.cfg.memCells ≤ target.toNat →
      step { s with eip := target.setWidth 64, cycles := s.cycles + 1 } =
        .next (faultedWith { s with eip := target.setWidth 64, cycles := s.cycles + 1 }
          (.capacityError (target.setWidth 64))))

/-- `0BRANCH` (R112): pops in both cases, tests all 64 bits, faults on an empty stack. -/
def Obligations.ZeroBranchPopsAndTests : Prop :=
  ∀ (target : BitVec 13) (s : State),
    (s.sp = 0 → exec (.zeroBranch target) s = .next (faultedWith s (.stackError .data .underflow))) ∧
    (1 ≤ s.sp → exec (.zeroBranch target) s = .next
      { s with t := nOf s, sp := s.sp - 1, eip := if s.t = 0 then target.setWidth 64 else s.eip + 1, cycles := s.cycles + 1 })

/-- `CALL` (R113). -/
def Obligations.CallPushesTheLink : Prop :=
  ∀ (target : BitVec 13) (s : State),
    (s.cfg.rcap ≤ s.rsp → exec (.call target) s = .next (faultedWith s (.stackError .ret .overflow))) ∧
    (s.rsp < s.cfg.rcap → exec (.call target) s = .next
      { s with rs := s.rs.set s.rsp s.r, rsp := s.rsp + 1, r := s.eip + 1, eip := target.setWidth 64,
               cycles := s.cycles + 1 })

/-- `LIT.PUSH` (R90), for every chunk and shift: the pushed value is `mag * 2^(12 * shift)`. -/
def Obligations.LitPushPushesTheChunk : Prop :=
  ∀ (mag : BitVec 12) (shift : BitVec 2) (s : State),
    (s.cfg.dcap ≤ s.sp → exec (.litPush mag shift) s = .next (faultedWith s (.stackError .data .overflow))) ∧
    (s.sp < s.cfg.dcap → exec (.litPush mag shift) s = .next
      { s with ds := s.ds.set s.sp s.t, sp := s.sp + 1, t := BitVec.ofNat 64 (mag.toNat * 2 ^ (12 * shift.toNat)),
               eip := s.eip + 1, cycles := s.cycles + 1 })

/-- `LIT.ADD` (R91): adds into `T` modulo 2^64 and touches no array, whatever the depth. -/
def Obligations.LitAddAddsTheChunk : Prop :=
  ∀ (mag : BitVec 12) (shift : BitVec 2) (s : State),
    exec (.litAdd mag shift) s = .next
      { s with t := BitVec.ofNat 64 (s.t.toNat + mag.toNat * 2 ^ (12 * shift.toNat)), eip := s.eip + 1,
               cycles := s.cycles + 1 }

/-! ## The ALU family -/

/-- Operations 0 and 8, whose only operand is `IN`: they complete wherever the muxes and deltas may act (R140, R148). -/
def Obligations.PassAndComplementComplete : Prop :=
  ∀ (f : AluFields) (s : State), DeltasFit f s → MuxesReach f s →
    Completes (.aluIn f) f s (inOf f s) s.t s.ds ∧
    Completes (.aluNot f) f s (BitVec.allOnes 64 - inOf f s) s.t s.ds

/-- Operations 1 and 2: `OUT` is `IN` sampled before the side effect, `T` takes `N0`, and the swap puts `T0` into `DS[SP-1]`; with an
empty stack both fault (R141, R142). -/
def Obligations.SwapAndCopyMoveTheTop : Prop :=
  ∀ (f : AluFields) (s : State),
    (1 ≤ s.sp → DeltasFit f s → MuxesReach f s →
      Completes (.aluSwap f) f s (inOf f s) (nOf s) (s.ds.set (s.sp - 1) s.t) ∧
      Completes (.aluNToT f) f s (inOf f s) (nOf s) s.ds) ∧
    (s.sp = 0 → exec (.aluSwap f) s = .next (faultedWith s (.stackError .data .underflow)) ∧
      exec (.aluNToT f) s = .next (faultedWith s (.stackError .data .underflow)))

/-- Operations 3 to 7 pair `IN` with `N0`: sum and product modulo 2^64, and, or, exclusive or, and with an empty stack they fault
(R143 to R147). -/
def Obligations.ArithmeticPairsInWithN : Prop :=
  ∀ p ∈ ([ (.aluAdd, fun a b => BitVec.ofNat 64 (a.toNat + b.toNat)),
           (.aluAnd, fun a b => BitVec.ofNat 64 (a.toNat &&& b.toNat)),
           (.aluOr, fun a b => BitVec.ofNat 64 (a.toNat ||| b.toNat)),
           (.aluXor, fun a b => BitVec.ofNat 64 (a.toNat ^^^ b.toNat)),
           (.aluMul, fun a b => BitVec.ofNat 64 (a.toNat * b.toNat)) ]
          : List ((AluFields → Instr) × (StackCell → StackCell → StackCell))),
    ∀ (f : AluFields) (s : State),
      (1 ≤ s.sp → DeltasFit f s → MuxesReach f s → Completes (p.1 f) f s (p.2 (inOf f s) (nOf s)) s.t s.ds) ∧
      (s.sp = 0 → exec (p.1 f) s = .next (faultedWith s (.stackError .data .underflow)))

/-- Operations 9 to 11 leave all ones or zero: equality on all 64 bits, `N0 < IN` signed and unsigned, and with an empty stack
they fault (R149 to R151). -/
def Obligations.ComparisonsLeaveBooleans : Prop :=
  ∀ p ∈ ([ (.aluEq, fun a n => decide (a.toNat = n.toNat)),
           (.aluLt, fun a n => decide (n.toInt < a.toInt)),
           (.aluULt, fun a n => decide (n.toNat < a.toNat)) ]
          : List ((AluFields → Instr) × (StackCell → StackCell → Bool))),
    ∀ (f : AluFields) (s : State),
      (1 ≤ s.sp → DeltasFit f s → MuxesReach f s →
        Completes (p.1 f) f s (if p.2 (inOf f s) (nOf s) then 0xFFFFFFFFFFFFFFFF else 0) s.t s.ds) ∧
      (s.sp = 0 → exec (p.1 f) s = .next (faultedWith s (.stackError .data .underflow)))

/-- Operations 12 and 13: logical shifts by the unsigned count `T0`, exact up to 63, `SHIFT_OVER` from 64 on, whatever that
parameter is (R152, R153). -/
def Obligations.ShiftsCountByT : Prop :=
  ∀ (f : AluFields) (s : State), DeltasFit f s → MuxesReach f s →
    Completes (.aluShr f) f s (shiftRule s.cfg .right (inOf f s) s.t) s.t s.ds ∧
    Completes (.aluShl f) f s (shiftRule s.cfg .left (inOf f s) s.t) s.t s.ds

/-- Operation 14: one cell, zero-extended, from the address `IN`, read before this instruction's own store; an address outside
the memory faults (R154). -/
def Obligations.LoadReadsTheCellAtIn : Prop :=
  ∀ (f : AluFields) (s : State), DeltasFit f s → MuxesReach f s →
    ((inOf f s).toNat < s.cfg.memCells →
      Completes (.aluLoad f) f s ((s.mem.readCell (inOf f s).toNat).setWidth 64) s.t s.ds) ∧
    (s.cfg.memCells ≤ (inOf f s).toNat → exec (.aluLoad f) s = .next (faultedWith s (.capacityError (inOf f s))))

/-- Operation 15 (R155, R191): at 0xE0 the next input byte, zero-extended and consumed; the end of the input faults; an empty open
stream holds the core; another address faults, or, where that is not fatal, yields an unspecified value (R196). Two points are the
model's choice: that a hold is the outcome `.fault .heldForInput` (notes/assumptions/11.md), and that the unspecified value is
the free value `freeRead` of the model's own counter `freeReads`, which counts up by one (DESIGN CHOICE,
notes/assumptions/8.md). -/
def Obligations.IoReadTakesAByte : Prop :=
  ∀ (f : AluFields) (s : State), DeltasFit f s → MuxesReach f s →
    (∀ b rest, inOf f s = 0xE0 → s.inq = b :: rest →
      ∃ t, exec (.aluIoRead f) s = .next t ∧ AluLeaves f s t (b.setWidth 64) s.t s.ds ∧
        t.inq = rest ∧ t.freeReads = s.freeReads) ∧
    (inOf f s = 0xE0 → s.inq = [] → s.inClosed = true → exec (.aluIoRead f) s = .next (faultedWith s .ioError)) ∧
    (inOf f s = 0xE0 → s.inq = [] → s.inClosed = false → exec (.aluIoRead f) s = .fault .heldForInput) ∧
    (inOf f s ≠ 0xE0 → s.cfg.unsupportedIoFatal = true →
      exec (.aluIoRead f) s = .next (faultedWith s (.unsupportedOperation .read (inOf f s)))) ∧
    (inOf f s ≠ 0xE0 → s.cfg.unsupportedIoFatal = false →
      ∃ t, exec (.aluIoRead f) s = .next t ∧ AluLeaves f s t (freeRead s.freeReads) s.t s.ds ∧
        t.inq = s.inq ∧ t.freeReads = s.freeReads + 1)

/-- For each of the sixteen operations with every field value: the first failing check of R132's table is the fault reported,
with the state unchanged; where none fails the instruction is held for a byte (notes/assumptions/11.md) or commits. -/
def Obligations.FirstFailingCheckIsReported : Prop :=
  ∀ (op : AluOp) (f : AluFields) (s : State),
    (∀ k, firstFailing op f s = some k → exec (Instr.ofAlu op f) s = .next (faultedWith s k)) ∧
    (firstFailing op f s = none → needsByte op f s → exec (Instr.ofAlu op f) s = .fault .heldForInput) ∧
    (firstFailing op f s = none → ¬needsByte op f s →
      ∃ t, exec (Instr.ofAlu op f) s = .next t ∧ t.status = s.status ∧ t.cycles = s.cycles + 1)

/-- A write to an unrecognised I/O address (R193, R196): fatal, a fault that changes nothing; not fatal, nothing but the rest of the
instruction, for every operation that yields a value. -/
def Obligations.UnrecognisedIoWrite : Prop :=
  ∀ (op : AluOp) (f : AluFields) (s : State), f.out = .ioT → s.t ≠ 0xF0 → s.t ≠ 0xF1 →
    (s.cfg.unsupportedIoFatal = true → ∃ k, exec (Instr.ofAlu op f) s = .next (faultedWith s k)) ∧
    (s.cfg.unsupportedIoFatal = false → ∀ t, exec (Instr.ofAlu op f) s = .next t → t.outq = s.outq ∧ t.mem = s.mem)

/-- A return through `R` reaches any cell: with `ret` set an instruction that commits puts `R_0`, the value before its own pop, into
`EIP` (R161), for every operation. -/
def Obligations.ReturnUsesTheSampledR : Prop :=
  ∀ (op : AluOp) (f : AluFields) (s t : State), s.status = .running → exec (Instr.ofAlu op f) s = .next t →
    t.status = .running → t.eip = if f.ret then s.r else s.eip + 1

/-! ## Memory -/

/-- A load after a store of the same cell gives the low 16 bits, zero-extended; every other load is as before (R45). -/
def Obligations.LoadAfterStore : Prop :=
  ∀ (s : State) (a b v : StackCell),
    (s.storeCell a v).loadCell b = if a = b then (v.setWidth 16).setWidth 64 else s.loadCell b

/-- A cell is two bytes of the image, the low one at the lower byte address, and a store to a cell changes no other byte. That MEM is
held as such byte pairs is the model's choice (DESIGN CHOICE, notes/assumptions/1.md): inside the core there is no byte order,
and R46 gives the one of a persisted image, which the pairs follow. -/
def Obligations.CellsAreLittleEndianPairs : Prop :=
  ∀ (m : Memory) (k : Nat) (v : MemCell),
    (m.writeCell k v).readByte (2 * k) = v.extractLsb' 0 8 ∧
    (m.writeCell k v).readByte (2 * k + 1) = v.extractLsb' 8 8 ∧
    (m.writeCell k v).readCell k = v ∧
    ∀ b, b ≠ 2 * k → b ≠ 2 * k + 1 → (m.writeCell k v).readByte b = m.readByte b

/-- The canonical form is canonical: two memories in it that read alike everywhere are the same data. The form is the model's
own (notes/assumptions/1.md). -/
def Obligations.CanonicalMemoriesAreEqual : Prop :=
  ∀ m n : Memory, m.wf → n.wf → (∀ a, m.readByte a = n.readByte a) → m = n

/-- A program laid from cell `k` upward is read back cell by cell, and nothing else changes (R17, R262). -/
def Obligations.LoadedProgramReadsBack : Prop :=
  ∀ (ws : List MemCell) (m : Memory) (k j : Nat),
    (m.withWords k ws).readCell j = if k ≤ j then (ws[j - k]?).getD (m.readCell j) else m.readCell j

/-- A store is seen by the very next fetch (R53): an instruction that stores to the cell it continues at changes the instruction
executed next. -/
def Obligations.StoreIsSeenByTheNextFetch : Prop :=
  ∀ (f : AluFields) (s t : State), f.out = .memT → s.status = .running → DeltasFit f s → MuxesReach f s →
    (if f.ret then s.r else s.eip + 1) = s.t → exec (.aluIn f) s = .next t →
    step t = exec (decode ((inOf f s).setWidth 16)) t

/-! ## The multi-byte output and the host -/

/-- Address 0xF0 appends exactly as many bytes as the value's significant bits need, low byte first (R195). -/
def Obligations.MultiByteOutputIsMinimal : Prop :=
  ∀ v : StackCell,
    (∀ s : State, (s.ioWrite 0xF0 v).outq = s.outq ++ multiBytes v) ∧
    (multiBytes v).foldr (fun b acc => 256 * acc + b.toNat) 0 = v.toNat ∧
    (multiBytes v).length ≤ 8 ∧ (∀ b, (multiBytes v).getLast? = some b → b ≠ 0)

/-- A held byte read (R192): no step while the stream is empty and open; a byte the host appends is the one it takes, and closing
the stream makes it fault. The outcome of a hold and the form of the host's actions are the model's: notes/assumptions/11.md
and notes/assumptions/13.md. -/
def Obligations.HostLiftsTheHold : Prop :=
  ∀ (s : State) (f : AluFields), s.status = .running → s.eip.toNat < s.cfg.memCells →
    decode (s.mem.readCell s.eip.toNat) = .aluIoRead f → DeltasFit f s → MuxesReach f s → inOf f s = 0xE0 →
    s.inq = [] → s.inClosed = false →
    step s = .fault .heldForInput ∧
    (∀ b bytes, ∃ u t, s.hostAppend (b :: bytes) = some u ∧ step u = .next t ∧ t.status = .running ∧ t.inq = bytes) ∧
    (∃ u, s.hostClose = some u ∧ step u = .next (faultedWith u .ioError))

/-! ## Stacks as lists, words and literals -/

/-- Push and pop on the logical stacks (R29, R20 to R23): a push appends, a pop drops the last, and a push then a pop restores `T` and
`SP` and leaves the old `T` in `DS[SP]`. -/
def Obligations.StacksPushAndPop : Prop :=
  ∀ (s : State) (v : StackCell), Inv s →
    (s.sp < s.cfg.dcap → (s.dPush v).dstack = s.dstack ++ [v] ∧ (s.dPush v).dPop.t = s.t ∧
      (s.dPush v).dPop.sp = s.sp ∧ (s.dPush v).dPop.dsAt s.sp = s.t) ∧
    (1 ≤ s.sp → s.dPop.dstack = s.dstack.dropLast) ∧
    (s.rsp < s.cfg.rcap → (s.rPush v).rstack = s.rstack ++ [v] ∧ (s.rPush v).rPop.r = s.r ∧
      (s.rPush v).rPop.rsp = s.rsp) ∧
    (1 ≤ s.rsp → s.rPop.rstack = s.rstack.dropLast)

/-- The data-stack words of R211 have their stack effects, for every stack below their operands. -/
def Obligations.DataWordsHaveTheirStackEffects : Prop :=
  ∀ (s : State) (xs : List StackCell), Inv s →
    Leaves 0x6400 s s.dstack s.rstack ∧
    (∀ a, s.dstack = xs ++ [a] →
      Leaves 0x6003 s xs s.rstack ∧
      Leaves 0x6480 s (xs ++ [~~~a]) s.rstack ∧
      Leaves 0xC001 s (xs ++ [a + 1]) s.rstack ∧
      (s.sp < s.cfg.dcap → Leaves 0x6401 s (xs ++ [a, a]) s.rstack)) ∧
    (∀ a b, s.dstack = xs ++ [a, b] →
      Leaves 0x6010 s (xs ++ [b, a]) s.rstack ∧
      Leaves 0x6403 s (xs ++ [b]) s.rstack ∧
      Leaves 0x6433 s (xs ++ [a + b]) s.rstack ∧
      Leaves 0x6430 s (xs ++ [a, a + b]) s.rstack ∧
      Leaves 0x6443 s (xs ++ [a &&& b]) s.rstack ∧
      Leaves 0x6453 s (xs ++ [a ||| b]) s.rstack ∧
      Leaves 0x6463 s (xs ++ [a ^^^ b]) s.rstack ∧
      Leaves 0x6473 s (xs ++ [a * b]) s.rstack ∧
      Leaves 0x6493 s (xs ++ [bool64 (a == b)]) s.rstack ∧
      Leaves 0x64A3 s (xs ++ [bool64 (a.slt b)]) s.rstack ∧
      Leaves 0x64B3 s (xs ++ [bool64 (a.ult b)]) s.rstack ∧
      (b.toNat < 64 → Leaves 0x60C3 s (xs ++ [a >>> b.toNat]) s.rstack ∧
        Leaves 0x60D3 s (xs ++ [a <<< b.toNat]) s.rstack) ∧
      (s.sp < s.cfg.dcap → Leaves 0x6001 s (xs ++ [a, b, a]) s.rstack))

/-- The return-stack, memory and I/O words of R211 have their stack effects. -/
def Obligations.ReturnAndMemoryWordsHaveTheirStackEffects : Prop :=
  ∀ (s : State) (xs ys : List StackCell), Inv s →
    (∀ a, s.dstack = xs ++ [a] → s.rsp < s.cfg.rcap → Leaves 0x6507 s xs (s.rstack ++ [a])) ∧
    (∀ a, s.rstack = ys ++ [a] → s.sp < s.cfg.dcap →
      Leaves 0x6C0D s (s.dstack ++ [a]) ys ∧ Leaves 0x6C01 s (s.dstack ++ [a]) s.rstack) ∧
    (∀ a, s.rstack = ys ++ [a] →
      ∃ t, exec (decode 0x740C) s = .next t ∧ t.dstack = s.dstack ∧ t.rstack = ys ∧ t.eip = a) ∧
    (∀ a, s.dstack = xs ++ [a] → a.toNat < s.cfg.memCells →
      Leaves 0x6800 s (xs ++ [(s.mem.readCell a.toNat).setWidth 64]) s.rstack) ∧
    (∀ x a, s.dstack = xs ++ [x, a] → a.toNat < s.cfg.memCells →
      ∃ t, exec (decode 0x6202) s = .next t ∧ t.dstack = xs ∧ t.rstack = s.rstack ∧
        t.mem.readCell a.toNat = x.setWidth 16) ∧
    (∀ b rest, s.dstack = xs ++ [0xE0] → s.inq = b :: rest →
      ∃ t, exec (decode 0x64F0) s = .next t ∧ t.dstack = xs ++ [b.setWidth 64] ∧ t.rstack = s.rstack ∧ t.inq = rest) ∧
    (∀ x, s.dstack = xs ++ [x, 0xF1] →
      ∃ t, exec (decode 0x6302) s = .next t ∧ t.dstack = xs ∧ t.rstack = s.rstack ∧ t.outq = s.outq ++ [x.setWidth 8])

/-- The dictionary built from the definitions, each a name and its text, holds under each name the words R211 and R212 print. -/
def Obligations.DictionaryHoldsThePrintedWords : Prop :=
  stdDictionary = .ok
    [ ("noop", [0x6400]), ("dup", [0x6401]), ("drop", [0x6003]), ("swap", [0x6010]), ("over", [0x6001]), ("nip", [0x6403]),
      ("+", [0x6433]), ("over+", [0x6430]), ("and", [0x6443]), ("or", [0x6453]), ("xor", [0x6463]), ("*", [0x6473]),
      ("invert", [0x6480]), ("=", [0x6493]), ("<", [0x64A3]), ("u<", [0x64B3]), ("rshift", [0x60C3]), ("lshift", [0x60D3]),
      ("@", [0x6800]), ("!", [0x6202]), (">r", [0x6507]), ("r>", [0x6C0D]), ("r@", [0x6C01]), ("exit", [0x740C]),
      ("io@", [0x64F0]), ("io!", [0x6302]), ("1+", [0xC001]),
      ("rot", [0x6507, 0x6010, 0x6C0D, 0x6010]), ("negate", [0x6480, 0xC001]), ("-", [0x6480, 0xC001, 0x6433]),
      ("tuck", [0x6010, 0x6001]), ("2dup", [0x6001, 0x6001]), ("emit", [0x80F1, 0x6302]), ("key", [0x80E0, 0x64F0]) ]

/-- The round-trip literal law (R95 (a), (b), (c)): for every 64-bit `n`, `enc(n)` executed where two data-stack cells are free pushes
exactly `n`, over an unchanged stack, and touches neither the return stack nor memory; its length is 1 to 9. -/
def Obligations.LiteralReconstructsItsValue : Prop :=
  ∀ (n : StackCell) (s : State), Inv s → s.status = .running → s.sp + 2 ≤ s.cfg.dcap →
    (1 ≤ (encLiteral n).length ∧ (encLiteral n).length ≤ 9) ∧
    ∃ t, execAll (encLiteral n) s = .next t ∧ t.t = n ∧ t.sp = s.sp + 1 ∧ t.dstack = s.dstack ++ [n] ∧
      t.eip = s.eip + BitVec.ofNat 64 (encLiteral n).length ∧
      t.cycles = s.cycles + BitVec.ofNat 64 (encLiteral n).length ∧
      t.r = s.r ∧ t.rs = s.rs ∧ t.rsp = s.rsp ∧ t.mem = s.mem ∧ t.inq = s.inq ∧ t.outq = s.outq ∧ t.status = .running

/-! ## The codec's equality and the assembler's notation -/

/-- `equals` is raw 16-bit equality (R77). On instructions it is equality but for the one pair that shares a word: `jmp 0`, whose word
`0x0000` is the halt sentinel, and `halt` (R70 (a)). -/
def Obligations.RawEqualityIdentifiesHaltAndJumpToZero : Prop :=
  (∀ a b : MemCell, equals a b = true ↔ a.toNat = b.toNat) ∧
  ∀ i j : Instr, i.equals j = true ↔ i = j ∨ (i = .halt ∧ j = .jmp 0) ∨ (i = .jmp 0 ∧ j = .halt)

/-- The tokens of R72 and R74, put together by the builder's algorithm, spell every ALU instruction, whatever the Dictionary holds:
the field-mnemonic table is looked up first (R73). -/
def Obligations.MnemonicsSpellEveryAluInstruction : Prop :=
  ∀ (dict : Dictionary) (op : AluOp) (f : AluFields),
    assemble dict 0 (aluTokens op f) = .ok [encode (Instr.ofAlu op f)]

/-- A bare integer of at most 4095 is the magnitude of a literal, at every literal shift and with or without the add flag, and the
target of a control transfer (R75, R74), where the Dictionary has no word of that name (R73). That it is written in decimal
digits is the model's choice: notes/assumptions/18.md. -/
def Obligations.BareIntegersSpellLiteralsAndTargets : Prop :=
  ∀ (dict : Dictionary) (tok : String) (n : Nat), bareInteger tok = some n → dict.lookup tok = none →
    n ≤ 4095 ∧
    (∀ p ∈ shiftTokens,
      assemble dict 0 (tok :: p.1 ++ ["imm"]) = .ok [encode (.litPush (BitVec.ofNat 12 n) p.2)] ∧
      assemble dict 0 (tok :: p.1 ++ ["+imm", "imm"]) = .ok [encode (.litAdd (BitVec.ofNat 12 n) p.2)]) ∧
    assemble dict 0 [tok, "ubranch"] = .ok [encode (.jmp (BitVec.ofNat 13 n))] ∧
    assemble dict 0 [tok, "0branch"] = .ok [encode (.zeroBranch (BitVec.ofNat 13 n))] ∧
    assemble dict 0 [tok, "scall"] = .ok [encode (.call (BitVec.ofNat 13 n))]

/-- A program is the sequences of its pseudo-instructions one after another, and at its end the halt sentinel, unless the last
instruction emitted is the `exit` encoding `0x740C` (R76). -/
def Obligations.CompiledProgramEndsInHaltOrExit : Prop :=
  ∀ (dict : Dictionary) (ps : List Pseudo) (words : List MemCell), compileProgram dict ps = .ok words →
    ∃ parts : List (List MemCell), ps.map (expand dict) = parts.map .ok ∧
      (parts.flatten.getLast? = some 0x740C → words = parts.flatten) ∧
      (parts.flatten.getLast? ≠ some 0x740C → words = parts.flatten ++ [0])
end

