-- ==== Sys2Proof/Laws/Assembler.lean ====
section
/-! SUPPORT. What the builder's algorithm does with each kind of token, and how a name is resolved. -/

namespace Sys2Proof.Machine

/-- A mnemonic of the field table is that mnemonic, whatever the Dictionary holds. -/
theorem resolve_mnemonic {tok : String} {m : TokenMeaning} (dict : Dictionary) (h : fieldTable.lookup tok = some m) :
    resolve dict tok = some m := by
  simp [resolve, h]

/-- A word of the Dictionary that is no mnemonic is its sequence. -/
theorem resolve_word {dict : Dictionary} {tok : String} {xs : List MemCell} (h : fieldTable.lookup tok = none)
    (hw : dict.lookup tok = some xs) : resolve dict tok = some (.word xs) := by
  simp [resolve, h, hw]

/-- What is neither a mnemonic nor a word is a bare integer or nothing. -/
theorem resolve_integer {dict : Dictionary} {tok : String} (h : fieldTable.lookup tok = none)
    (hw : dict.lookup tok = none) :
    resolve dict tok = (bareInteger tok).map (fun n => .inert (BitVec.ofNat 16 n)) := by
  simp [resolve, h, hw]

theorem assemble_inert {dict : Dictionary} {tok : String} {p : MemCell} (acc : MemCell) (toks : List String)
    (h : resolve dict tok = some (.inert p)) :
    assemble dict acc (tok :: toks) = assemble dict (acc ||| p) toks := by
  simp [assemble, h]

theorem assemble_terminal {dict : Dictionary} {tok : String} {p : MemCell} (acc : MemCell) (toks : List String)
    (h : resolve dict tok = some (.terminal p)) :
    assemble dict acc (tok :: toks) = (assemble dict 0 toks).map (fun out => (acc ||| p) :: out) := by
  simp [assemble, h]

theorem assemble_single {dict : Dictionary} {tok : String} {x : MemCell} (acc : MemCell) (toks : List String)
    (h : resolve dict tok = some (.word [x])) :
    assemble dict acc (tok :: toks) = (assemble dict 0 toks).map (fun out => (acc ||| x) :: out) := by
  simp [assemble, h]

/-- A word that is not a single instruction is spliced, and the accumulator stays. -/
theorem assemble_splice {dict : Dictionary} {tok : String} {xs : List MemCell} (acc : MemCell) (toks : List String)
    (h : resolve dict tok = some (.word xs)) (hx : xs.length ≠ 1) :
    assemble dict acc (tok :: toks) = (assemble dict acc toks).map (fun out => xs ++ out) := by
  match xs, hx with
  | [], _ => simp [assemble, h]
  | [_], hx => exact absurd rfl hx
  | _ :: _ :: _, _ => simp [assemble, h]

theorem assemble_unresolved {dict : Dictionary} {tok : String} (acc : MemCell) (toks : List String)
    (h : resolve dict tok = none) : assemble dict acc (tok :: toks) = .error (.definitionError tok) := by
  simp [assemble, h]

/-- The pattern of the terminal `alu` and the field patterns make up a format-A word (R63, R74). -/
theorem encodeAluWord_eq_patterns (op : AluOp) (f : AluFields) :
    encodeAluWord Layout.spec op f = classPattern .alu ||| placeAt (BitVec.ofBool f.ret) Layout.spec.ret |||
      inputPattern f.inp ||| outputPattern f.out ||| opPattern op ||| returnPattern f.rd ||| dataPattern f.dd := rfl

/-- Two instructions are raw-equal when their words are the same (R77). -/
theorem Instr_equals_iff (i j : Instr) : i.equals j = true ↔ encode i = encode j := by
  simp [Instr.equals, equals]

end Sys2Proof.Machine
end

