-- ==== Sys2Proof/Laws/Codec.lean ====
section
/-! SUPPORT. The code tables of the layout are bijections, and a field placed in a word is read back from its place. -/

namespace Sys2Proof

theorem class_of_code (c : BitVec 2) : codeOf Layout.spec.classes (valueOf Layout.spec.classes c) = c := by
  revert c; decide

theorem input_of_code (c : BitVec 2) : codeOf Layout.spec.inputs (valueOf Layout.spec.inputs c) = c := by
  revert c; decide

theorem output_of_code (c : BitVec 2) : codeOf Layout.spec.outputs (valueOf Layout.spec.outputs c) = c := by
  revert c; decide

theorem op_of_code (c : BitVec 4) : codeOf Layout.spec.ops (valueOf Layout.spec.ops c) = c := by
  revert c; decide

theorem delta_of_code (c : BitVec 2) : codeOf Layout.spec.deltas (valueOf Layout.spec.deltas c) = c := by
  revert c; decide

theorem code_of_class (x : InstrClass) : valueOf Layout.spec.classes (codeOf Layout.spec.classes x) = x := by
  cases x <;> rfl

theorem code_of_input (x : InMux) : valueOf Layout.spec.inputs (codeOf Layout.spec.inputs x) = x := by cases x <;> rfl

theorem code_of_output (x : OutMux) : valueOf Layout.spec.outputs (codeOf Layout.spec.outputs x) = x := by
  cases x <;> rfl

theorem code_of_op (x : AluOp) : valueOf Layout.spec.ops (codeOf Layout.spec.ops x) = x := by cases x <;> rfl

theorem code_of_delta (x : Delta) : valueOf Layout.spec.deltas (codeOf Layout.spec.deltas x) = x := by cases x <;> rfl

/-- Bit `i` of a placed field. -/
theorem getLsbD_placeAt {n : Nat} (v : BitVec n) (lo i : Nat) (hi : i < 16) :
    (placeAt v lo).getLsbD i = (decide (lo ≤ i) && v.getLsbD (i - lo)) := by
  unfold placeAt
  rw [BitVec.getLsbD_shiftLeft, BitVec.getLsbD_setWidth]
  by_cases h : i < lo
  · simp [h]
  · have : i - lo < 16 := by omega
    simp [h, hi, this]
    omega

/-- Bit `j` of a field of a word. -/
theorem getLsbD_fieldAt (w : MemCell) (lo n j : Nat) :
    (fieldAt w lo n).getLsbD j = (decide (j < n) && w.getLsbD (lo + j)) := by
  unfold fieldAt
  rw [BitVec.getLsbD_extractLsb']

/-- The ALU encoder, whatever the constructor. -/
theorem encode_ofAlu (op : AluOp) (f : AluFields) : encode (Instr.ofAlu op f) = encodeAluWord Layout.spec op f := by
  cases op <;> rfl

end Sys2Proof
end

