-- ==== Sys2Proof/Laws/Memory.lean ====
section
/-! SUPPORT. The laws of the memory: read after write, and that every operation keeps the canonical form and its bound. -/

namespace Sys2Proof.Machine

theorem readByte_filter_ne (m : Memory) (a b : Nat) (h : b ≠ a) :
    Memory.readByte (m.filter (fun c => c.1 ≠ a)) b = m.readByte b := by
  induction m with
  | nil => rfl
  | cons c rest ih =>
    by_cases hc : c.1 = a
    · have hb : ¬ c.1 = b := fun e => h (e ▸ hc)
      simp [Memory.readByte, hc] at ih ⊢
      rw [ih, if_neg (fun e => h e.symm)]
    · simp [Memory.readByte, hc] at ih ⊢
      rw [ih]

theorem readByte_filter_self (m : Memory) (a : Nat) :
    Memory.readByte (m.filter (fun c => c.1 ≠ a)) a = unlistedByte := by
  induction m with
  | nil => rfl
  | cons c rest ih =>
    by_cases hc : c.1 = a
    · simpa [List.filter_cons, hc] using ih
    · simp [hc, Memory.readByte] at ih ⊢
      exact ih

theorem readByte_insertByte (m : Memory) (a b : Nat) (v : Byte) (h : ∀ c ∈ m, c.1 ≠ a) :
    (Memory.insertByte m a v).readByte b = if a = b then v else m.readByte b := by
  induction m with
  | nil => rfl
  | cons c rest ih =>
    have hc : c.1 ≠ a := h c (by simp)
    have hr := ih (fun d hd => h d (by simp [hd]))
    unfold Memory.insertByte
    split
    · rfl
    · simp only [Memory.readByte, hr]
      split
      · rename_i hcb
        rw [if_neg (fun e => hc (hcb.trans e.symm))]
      · rfl

/-- A write puts its byte at its address and leaves every other byte, whatever the list looks like. -/
theorem readByte_writeByte (m : Memory) (a b : Nat) (v : Byte) :
    (m.writeByte a v).readByte b = if a = b then v else m.readByte b := by
  unfold Memory.writeByte
  split
  · rename_i hv
    split
    · rename_i hab
      rw [← hab, readByte_filter_self, hv]
    · rename_i hab
      exact readByte_filter_ne m a b (fun e => hab e.symm)
  · rw [readByte_insertByte _ _ _ _ (by intro c hc; simpa using (List.mem_filter.mp hc).2)]
    split
    · rfl
    · rename_i hab
      exact readByte_filter_ne m a b (fun e => hab e.symm)

/-- A cell write, byte by byte. -/
theorem readByte_writeCell (m : Memory) (k b : Nat) (v : MemCell) :
    (m.writeCell k v).readByte b =
      if b = 2 * k then v.extractLsb' 0 8 else if b = 2 * k + 1 then v.extractLsb' 8 8 else m.readByte b := by
  simp only [Memory.writeCell, readByte_writeByte]
  split_ifs <;> first | rfl | omega

/-- The two bytes of a cell are the cell. -/
theorem append_extract_bytes (v : MemCell) : v.extractLsb' 8 8 ++ v.extractLsb' 0 8 = v := by
  apply BitVec.eq_of_getLsbD_eq
  intro i hi
  simp only [BitVec.getLsbD_append, BitVec.getLsbD_extractLsb']
  by_cases h : i < 8
  · simp [h]
  · have h8 : i - 8 < 8 := by omega
    simp [h, h8, show 8 + (i - 8) = i by omega]

theorem readCell_writeCell_self (m : Memory) (k : Nat) (v : MemCell) : (m.writeCell k v).readCell k = v := by
  simp only [Memory.readCell, readByte_writeCell]
  rw [if_neg (by omega), if_pos trivial, if_pos trivial]
  exact append_extract_bytes v

theorem readCell_writeCell_ne (m : Memory) (k j : Nat) (v : MemCell) (h : j ≠ k) :
    (m.writeCell k v).readCell j = m.readCell j := by
  simp only [Memory.readCell, readByte_writeCell]
  rw [if_neg (by omega), if_neg (by omega), if_neg (by omega), if_neg (by omega)]

theorem mem_insertByte {m : Memory} {a : Nat} {v : Byte} {c : Host.Cell} (h : c ∈ Memory.insertByte m a v) :
    c = (a, v) ∨ c ∈ m := by
  induction m with
  | nil => simpa [Memory.insertByte] using h
  | cons d rest ih =>
    unfold Memory.insertByte at h
    split at h
    · simpa using h
    · rcases List.mem_cons.mp h with h | h
      · exact .inr (by simp [h])
      · rcases ih h with h | h
        · exact .inl h
        · exact .inr (by simp [h])

theorem pairwise_insertByte {m : Memory} {a : Nat} {v : Byte} (hm : m.Pairwise (fun x y => x.1 < y.1))
    (ha : ∀ c ∈ m, c.1 ≠ a) : (Memory.insertByte m a v).Pairwise (fun x y => x.1 < y.1) := by
  induction m with
  | nil => simp [Memory.insertByte]
  | cons d rest ih =>
    obtain ⟨hd, hr⟩ := List.pairwise_cons.mp hm
    unfold Memory.insertByte
    split
    · rename_i hlt
      refine List.pairwise_cons.mpr ⟨?_, hm⟩
      intro c hc
      rcases List.mem_cons.mp hc with rfl | hc
      · exact hlt
      · exact lt_trans hlt (hd c hc)
    · rename_i hlt
      refine List.pairwise_cons.mpr ⟨?_, ih hr (fun c hc => ha c (by simp [hc]))⟩
      intro c hc
      rcases mem_insertByte hc with rfl | hc
      · have := ha d (by simp)
        change d.1 < a
        omega
      · exact hd c hc

/-- Writing a byte keeps the canonical form. -/
theorem writeByte_wf {m : Memory} (a : Nat) (v : Byte) (h : m.wf) : (m.writeByte a v).wf := by
  have hf : Memory.wf (m.filter (fun c => c.1 ≠ a)) :=
    ⟨h.1.filter _, fun c hc => h.2 c (List.mem_filter.mp hc).1⟩
  unfold Memory.writeByte
  split
  · exact hf
  · rename_i hv
    refine ⟨pairwise_insertByte hf.1 (by intro c hc; simpa using (List.mem_filter.mp hc).2), ?_⟩
    intro c hc
    rcases mem_insertByte hc with rfl | hc
    · exact hv
    · exact hf.2 c hc

/-- Writing a cell keeps the canonical form. -/
theorem writeCell_wf {m : Memory} (k : Nat) (v : MemCell) (h : m.wf) : (m.writeCell k v).wf :=
  writeByte_wf _ _ (writeByte_wf _ _ h)

/-- Laying a program over a memory keeps the canonical form. -/
theorem withWords_wf (ws : List MemCell) : ∀ {m : Memory} (k : Nat), m.wf → (m.withWords k ws).wf := by
  induction ws with
  | nil => intro m k h; exact h
  | cons w ws ih => intro m k h; exact ih (k + 1) (writeCell_wf k w h)

theorem mem_writeByte {m : Memory} {a : Nat} {v : Byte} {c : Host.Cell} (h : c ∈ m.writeByte a v) :
    c.1 = a ∨ c ∈ m := by
  unfold Memory.writeByte at h
  split at h
  · exact .inr (List.mem_filter.mp h).1
  · rcases mem_insertByte h with rfl | h
    · exact .inl rfl
    · exact .inr (List.mem_filter.mp h).1

/-- Writing a cell below `n` lists no byte at or above `2 n`. -/
theorem writeCell_inside {m : Memory} {k n : Nat} (v : MemCell) (hk : k < n) (h : ∀ c ∈ m, c.1 < 2 * n) :
    ∀ c ∈ m.writeCell k v, c.1 < 2 * n := by
  intro c hc
  rcases mem_writeByte hc with h1 | h1
  · omega
  · rcases mem_writeByte h1 with h2 | h2
    · omega
    · exact h c h2

/-- The memory of the reset state has the canonical form. -/
theorem reset_mem_wf : State.reset.mem.wf := by decide

end Sys2Proof.Machine
end

