-- ==== Sys2Proof/Laws/State.lean ====
section
/-! SUPPORT. One lemma per field per update of the state, so that no proof unfolds a record update. -/

namespace Sys2Proof.Machine

@[simp] theorem State.raise_t (s : State) (k : CoreFault) : (s.raise k).t = s.t := rfl
@[simp] theorem State.raise_ds (s : State) (k : CoreFault) : (s.raise k).ds = s.ds := rfl
@[simp] theorem State.raise_sp (s : State) (k : CoreFault) : (s.raise k).sp = s.sp := rfl
@[simp] theorem State.raise_r (s : State) (k : CoreFault) : (s.raise k).r = s.r := rfl
@[simp] theorem State.raise_rs (s : State) (k : CoreFault) : (s.raise k).rs = s.rs := rfl
@[simp] theorem State.raise_rsp (s : State) (k : CoreFault) : (s.raise k).rsp = s.rsp := rfl
@[simp] theorem State.raise_eip (s : State) (k : CoreFault) : (s.raise k).eip = s.eip := rfl
@[simp] theorem State.raise_cycles (s : State) (k : CoreFault) : (s.raise k).cycles = s.cycles := rfl
@[simp] theorem State.raise_mem (s : State) (k : CoreFault) : (s.raise k).mem = s.mem := rfl
@[simp] theorem State.raise_inq (s : State) (k : CoreFault) : (s.raise k).inq = s.inq := rfl
@[simp] theorem State.raise_inClosed (s : State) (k : CoreFault) : (s.raise k).inClosed = s.inClosed := rfl
@[simp] theorem State.raise_outq (s : State) (k : CoreFault) : (s.raise k).outq = s.outq := rfl
@[simp] theorem State.raise_status (s : State) (k : CoreFault) : (s.raise k).status = .faulted k := rfl
@[simp] theorem State.raise_cfg (s : State) (k : CoreFault) : (s.raise k).cfg = s.cfg := rfl
@[simp] theorem State.raise_freeReads (s : State) (k : CoreFault) : (s.raise k).freeReads = s.freeReads := rfl

@[simp] theorem State.commit_t (s : State) (e : StackCell) : (s.commit e).t = s.t := rfl
@[simp] theorem State.commit_ds (s : State) (e : StackCell) : (s.commit e).ds = s.ds := rfl
@[simp] theorem State.commit_sp (s : State) (e : StackCell) : (s.commit e).sp = s.sp := rfl
@[simp] theorem State.commit_r (s : State) (e : StackCell) : (s.commit e).r = s.r := rfl
@[simp] theorem State.commit_rs (s : State) (e : StackCell) : (s.commit e).rs = s.rs := rfl
@[simp] theorem State.commit_rsp (s : State) (e : StackCell) : (s.commit e).rsp = s.rsp := rfl
@[simp] theorem State.commit_eip (s : State) (e : StackCell) : (s.commit e).eip = e := rfl
@[simp] theorem State.commit_cycles (s : State) (e : StackCell) : (s.commit e).cycles = s.cycles + 1 := rfl
@[simp] theorem State.commit_mem (s : State) (e : StackCell) : (s.commit e).mem = s.mem := rfl
@[simp] theorem State.commit_inq (s : State) (e : StackCell) : (s.commit e).inq = s.inq := rfl
@[simp] theorem State.commit_inClosed (s : State) (e : StackCell) : (s.commit e).inClosed = s.inClosed := rfl
@[simp] theorem State.commit_outq (s : State) (e : StackCell) : (s.commit e).outq = s.outq := rfl
@[simp] theorem State.commit_status (s : State) (e : StackCell) : (s.commit e).status = s.status := rfl
@[simp] theorem State.commit_cfg (s : State) (e : StackCell) : (s.commit e).cfg = s.cfg := rfl
@[simp] theorem State.commit_freeReads (s : State) (e : StackCell) : (s.commit e).freeReads = s.freeReads := rfl

@[simp] theorem State.dPush_t (s : State) (v : StackCell) : (s.dPush v).t = v := rfl
@[simp] theorem State.dPush_ds (s : State) (v : StackCell) : (s.dPush v).ds = s.ds.set s.sp s.t := rfl
@[simp] theorem State.dPush_sp (s : State) (v : StackCell) : (s.dPush v).sp = s.sp + 1 := rfl
@[simp] theorem State.dPush_r (s : State) (v : StackCell) : (s.dPush v).r = s.r := rfl
@[simp] theorem State.dPush_rs (s : State) (v : StackCell) : (s.dPush v).rs = s.rs := rfl
@[simp] theorem State.dPush_rsp (s : State) (v : StackCell) : (s.dPush v).rsp = s.rsp := rfl
@[simp] theorem State.dPush_eip (s : State) (v : StackCell) : (s.dPush v).eip = s.eip := rfl
@[simp] theorem State.dPush_cycles (s : State) (v : StackCell) : (s.dPush v).cycles = s.cycles := rfl
@[simp] theorem State.dPush_mem (s : State) (v : StackCell) : (s.dPush v).mem = s.mem := rfl
@[simp] theorem State.dPush_inq (s : State) (v : StackCell) : (s.dPush v).inq = s.inq := rfl
@[simp] theorem State.dPush_inClosed (s : State) (v : StackCell) : (s.dPush v).inClosed = s.inClosed := rfl
@[simp] theorem State.dPush_outq (s : State) (v : StackCell) : (s.dPush v).outq = s.outq := rfl
@[simp] theorem State.dPush_status (s : State) (v : StackCell) : (s.dPush v).status = s.status := rfl
@[simp] theorem State.dPush_cfg (s : State) (v : StackCell) : (s.dPush v).cfg = s.cfg := rfl
@[simp] theorem State.dPush_freeReads (s : State) (v : StackCell) : (s.dPush v).freeReads = s.freeReads := rfl

@[simp] theorem State.dPop_t (s : State) : (s.dPop).t = s.dsAt (s.sp - 1) := rfl
@[simp] theorem State.dPop_ds (s : State) : (s.dPop).ds = s.ds := rfl
@[simp] theorem State.dPop_sp (s : State) : (s.dPop).sp = s.sp - 1 := rfl
@[simp] theorem State.dPop_r (s : State) : (s.dPop).r = s.r := rfl
@[simp] theorem State.dPop_rs (s : State) : (s.dPop).rs = s.rs := rfl
@[simp] theorem State.dPop_rsp (s : State) : (s.dPop).rsp = s.rsp := rfl
@[simp] theorem State.dPop_eip (s : State) : (s.dPop).eip = s.eip := rfl
@[simp] theorem State.dPop_cycles (s : State) : (s.dPop).cycles = s.cycles := rfl
@[simp] theorem State.dPop_mem (s : State) : (s.dPop).mem = s.mem := rfl
@[simp] theorem State.dPop_inq (s : State) : (s.dPop).inq = s.inq := rfl
@[simp] theorem State.dPop_inClosed (s : State) : (s.dPop).inClosed = s.inClosed := rfl
@[simp] theorem State.dPop_outq (s : State) : (s.dPop).outq = s.outq := rfl
@[simp] theorem State.dPop_status (s : State) : (s.dPop).status = s.status := rfl
@[simp] theorem State.dPop_cfg (s : State) : (s.dPop).cfg = s.cfg := rfl
@[simp] theorem State.dPop_freeReads (s : State) : (s.dPop).freeReads = s.freeReads := rfl

@[simp] theorem State.rPush_t (s : State) (v : StackCell) : (s.rPush v).t = s.t := rfl
@[simp] theorem State.rPush_ds (s : State) (v : StackCell) : (s.rPush v).ds = s.ds := rfl
@[simp] theorem State.rPush_sp (s : State) (v : StackCell) : (s.rPush v).sp = s.sp := rfl
@[simp] theorem State.rPush_r (s : State) (v : StackCell) : (s.rPush v).r = v := rfl
@[simp] theorem State.rPush_rs (s : State) (v : StackCell) : (s.rPush v).rs = s.rs.set s.rsp s.r := rfl
@[simp] theorem State.rPush_rsp (s : State) (v : StackCell) : (s.rPush v).rsp = s.rsp + 1 := rfl
@[simp] theorem State.rPush_eip (s : State) (v : StackCell) : (s.rPush v).eip = s.eip := rfl
@[simp] theorem State.rPush_cycles (s : State) (v : StackCell) : (s.rPush v).cycles = s.cycles := rfl
@[simp] theorem State.rPush_mem (s : State) (v : StackCell) : (s.rPush v).mem = s.mem := rfl
@[simp] theorem State.rPush_inq (s : State) (v : StackCell) : (s.rPush v).inq = s.inq := rfl
@[simp] theorem State.rPush_inClosed (s : State) (v : StackCell) : (s.rPush v).inClosed = s.inClosed := rfl
@[simp] theorem State.rPush_outq (s : State) (v : StackCell) : (s.rPush v).outq = s.outq := rfl
@[simp] theorem State.rPush_status (s : State) (v : StackCell) : (s.rPush v).status = s.status := rfl
@[simp] theorem State.rPush_cfg (s : State) (v : StackCell) : (s.rPush v).cfg = s.cfg := rfl
@[simp] theorem State.rPush_freeReads (s : State) (v : StackCell) : (s.rPush v).freeReads = s.freeReads := rfl

@[simp] theorem State.rPop_t (s : State) : (s.rPop).t = s.t := rfl
@[simp] theorem State.rPop_ds (s : State) : (s.rPop).ds = s.ds := rfl
@[simp] theorem State.rPop_sp (s : State) : (s.rPop).sp = s.sp := rfl
@[simp] theorem State.rPop_r (s : State) : (s.rPop).r = s.rsAt (s.rsp - 1) := rfl
@[simp] theorem State.rPop_rs (s : State) : (s.rPop).rs = s.rs := rfl
@[simp] theorem State.rPop_rsp (s : State) : (s.rPop).rsp = s.rsp - 1 := rfl
@[simp] theorem State.rPop_eip (s : State) : (s.rPop).eip = s.eip := rfl
@[simp] theorem State.rPop_cycles (s : State) : (s.rPop).cycles = s.cycles := rfl
@[simp] theorem State.rPop_mem (s : State) : (s.rPop).mem = s.mem := rfl
@[simp] theorem State.rPop_inq (s : State) : (s.rPop).inq = s.inq := rfl
@[simp] theorem State.rPop_inClosed (s : State) : (s.rPop).inClosed = s.inClosed := rfl
@[simp] theorem State.rPop_outq (s : State) : (s.rPop).outq = s.outq := rfl
@[simp] theorem State.rPop_status (s : State) : (s.rPop).status = s.status := rfl
@[simp] theorem State.rPop_cfg (s : State) : (s.rPop).cfg = s.cfg := rfl
@[simp] theorem State.rPop_freeReads (s : State) : (s.rPop).freeReads = s.freeReads := rfl

@[simp] theorem State.setCell_t (s : State) (a : StackCell) (v : MemCell) : (s.setCell a v).t = s.t := rfl
@[simp] theorem State.setCell_ds (s : State) (a : StackCell) (v : MemCell) : (s.setCell a v).ds = s.ds := rfl
@[simp] theorem State.setCell_sp (s : State) (a : StackCell) (v : MemCell) : (s.setCell a v).sp = s.sp := rfl
@[simp] theorem State.setCell_r (s : State) (a : StackCell) (v : MemCell) : (s.setCell a v).r = s.r := rfl
@[simp] theorem State.setCell_rs (s : State) (a : StackCell) (v : MemCell) : (s.setCell a v).rs = s.rs := rfl
@[simp] theorem State.setCell_rsp (s : State) (a : StackCell) (v : MemCell) : (s.setCell a v).rsp = s.rsp := rfl
@[simp] theorem State.setCell_eip (s : State) (a : StackCell) (v : MemCell) : (s.setCell a v).eip = s.eip := rfl
@[simp] theorem State.setCell_cycles (s : State) (a : StackCell) (v : MemCell) : (s.setCell a v).cycles = s.cycles := rfl
@[simp] theorem State.setCell_mem (s : State) (a : StackCell) (v : MemCell) : (s.setCell a v).mem = s.mem.writeCell a.toNat v := rfl
@[simp] theorem State.setCell_inq (s : State) (a : StackCell) (v : MemCell) : (s.setCell a v).inq = s.inq := rfl
@[simp] theorem State.setCell_inClosed (s : State) (a : StackCell) (v : MemCell) : (s.setCell a v).inClosed = s.inClosed := rfl
@[simp] theorem State.setCell_outq (s : State) (a : StackCell) (v : MemCell) : (s.setCell a v).outq = s.outq := rfl
@[simp] theorem State.setCell_status (s : State) (a : StackCell) (v : MemCell) : (s.setCell a v).status = s.status := rfl
@[simp] theorem State.setCell_cfg (s : State) (a : StackCell) (v : MemCell) : (s.setCell a v).cfg = s.cfg := rfl
@[simp] theorem State.setCell_freeReads (s : State) (a : StackCell) (v : MemCell) : (s.setCell a v).freeReads = s.freeReads := rfl

@[simp] theorem State.storeCell_t (s : State) (a v : StackCell) : (s.storeCell a v).t = s.t := rfl
@[simp] theorem State.storeCell_ds (s : State) (a v : StackCell) : (s.storeCell a v).ds = s.ds := rfl
@[simp] theorem State.storeCell_sp (s : State) (a v : StackCell) : (s.storeCell a v).sp = s.sp := rfl
@[simp] theorem State.storeCell_r (s : State) (a v : StackCell) : (s.storeCell a v).r = s.r := rfl
@[simp] theorem State.storeCell_rs (s : State) (a v : StackCell) : (s.storeCell a v).rs = s.rs := rfl
@[simp] theorem State.storeCell_rsp (s : State) (a v : StackCell) : (s.storeCell a v).rsp = s.rsp := rfl
@[simp] theorem State.storeCell_eip (s : State) (a v : StackCell) : (s.storeCell a v).eip = s.eip := rfl
@[simp] theorem State.storeCell_cycles (s : State) (a v : StackCell) : (s.storeCell a v).cycles = s.cycles := rfl
@[simp] theorem State.storeCell_mem (s : State) (a v : StackCell) : (s.storeCell a v).mem = s.mem.writeCell a.toNat (v.setWidth 16) := rfl
@[simp] theorem State.storeCell_inq (s : State) (a v : StackCell) : (s.storeCell a v).inq = s.inq := rfl
@[simp] theorem State.storeCell_inClosed (s : State) (a v : StackCell) : (s.storeCell a v).inClosed = s.inClosed := rfl
@[simp] theorem State.storeCell_outq (s : State) (a v : StackCell) : (s.storeCell a v).outq = s.outq := rfl
@[simp] theorem State.storeCell_status (s : State) (a v : StackCell) : (s.storeCell a v).status = s.status := rfl
@[simp] theorem State.storeCell_cfg (s : State) (a v : StackCell) : (s.storeCell a v).cfg = s.cfg := rfl
@[simp] theorem State.storeCell_freeReads (s : State) (a v : StackCell) : (s.storeCell a v).freeReads = s.freeReads := rfl

@[simp] theorem State.ioWrite_t (s : State) (a v : StackCell) : (s.ioWrite a v).t = s.t := rfl
@[simp] theorem State.ioWrite_ds (s : State) (a v : StackCell) : (s.ioWrite a v).ds = s.ds := rfl
@[simp] theorem State.ioWrite_sp (s : State) (a v : StackCell) : (s.ioWrite a v).sp = s.sp := rfl
@[simp] theorem State.ioWrite_r (s : State) (a v : StackCell) : (s.ioWrite a v).r = s.r := rfl
@[simp] theorem State.ioWrite_rs (s : State) (a v : StackCell) : (s.ioWrite a v).rs = s.rs := rfl
@[simp] theorem State.ioWrite_rsp (s : State) (a v : StackCell) : (s.ioWrite a v).rsp = s.rsp := rfl
@[simp] theorem State.ioWrite_eip (s : State) (a v : StackCell) : (s.ioWrite a v).eip = s.eip := rfl
@[simp] theorem State.ioWrite_cycles (s : State) (a v : StackCell) : (s.ioWrite a v).cycles = s.cycles := rfl
@[simp] theorem State.ioWrite_mem (s : State) (a v : StackCell) : (s.ioWrite a v).mem = s.mem := rfl
@[simp] theorem State.ioWrite_inq (s : State) (a v : StackCell) : (s.ioWrite a v).inq = s.inq := rfl
@[simp] theorem State.ioWrite_inClosed (s : State) (a v : StackCell) : (s.ioWrite a v).inClosed = s.inClosed := rfl
@[simp] theorem State.ioWrite_outq (s : State) (a v : StackCell) : (s.ioWrite a v).outq = s.outq ++ ioOutBytes a v := rfl
@[simp] theorem State.ioWrite_status (s : State) (a v : StackCell) : (s.ioWrite a v).status = s.status := rfl
@[simp] theorem State.ioWrite_cfg (s : State) (a v : StackCell) : (s.ioWrite a v).cfg = s.cfg := rfl
@[simp] theorem State.ioWrite_freeReads (s : State) (a v : StackCell) : (s.ioWrite a v).freeReads = s.freeReads := rfl

@[simp] theorem State.withFetchWord_t (s : State) (nbits w : Nat) : (s.withFetchWord nbits w).t = s.t := rfl
@[simp] theorem State.withFetchWord_ds (s : State) (nbits w : Nat) : (s.withFetchWord nbits w).ds = s.ds := rfl
@[simp] theorem State.withFetchWord_sp (s : State) (nbits w : Nat) : (s.withFetchWord nbits w).sp = s.sp := rfl
@[simp] theorem State.withFetchWord_r (s : State) (nbits w : Nat) : (s.withFetchWord nbits w).r = s.r := rfl
@[simp] theorem State.withFetchWord_rs (s : State) (nbits w : Nat) : (s.withFetchWord nbits w).rs = s.rs := rfl
@[simp] theorem State.withFetchWord_rsp (s : State) (nbits w : Nat) : (s.withFetchWord nbits w).rsp = s.rsp := rfl
@[simp] theorem State.withFetchWord_eip (s : State) (nbits w : Nat) : (s.withFetchWord nbits w).eip = s.eip := rfl
@[simp] theorem State.withFetchWord_cycles (s : State) (nbits w : Nat) : (s.withFetchWord nbits w).cycles = s.cycles := rfl
@[simp] theorem State.withFetchWord_mem (s : State) (nbits w : Nat) : (s.withFetchWord nbits w).mem = s.mem.writeCell s.eip.toNat (BitVec.ofNat 16 (w % 2 ^ nbits)) := rfl
@[simp] theorem State.withFetchWord_inq (s : State) (nbits w : Nat) : (s.withFetchWord nbits w).inq = s.inq := rfl
@[simp] theorem State.withFetchWord_inClosed (s : State) (nbits w : Nat) : (s.withFetchWord nbits w).inClosed = s.inClosed := rfl
@[simp] theorem State.withFetchWord_outq (s : State) (nbits w : Nat) : (s.withFetchWord nbits w).outq = s.outq := rfl
@[simp] theorem State.withFetchWord_status (s : State) (nbits w : Nat) : (s.withFetchWord nbits w).status = s.status := rfl
@[simp] theorem State.withFetchWord_cfg (s : State) (nbits w : Nat) : (s.withFetchWord nbits w).cfg = s.cfg := rfl
@[simp] theorem State.withFetchWord_freeReads (s : State) (nbits w : Nat) : (s.withFetchWord nbits w).freeReads = s.freeReads := rfl

/-! The updates that select by a mux or a delta leave every field they do not name. -/

@[simp] theorem dataDelta_r (d : Delta) (s : State) : (dataDelta d s).r = s.r := by cases d <;> rfl
@[simp] theorem dataDelta_rs (d : Delta) (s : State) : (dataDelta d s).rs = s.rs := by cases d <;> rfl
@[simp] theorem dataDelta_rsp (d : Delta) (s : State) : (dataDelta d s).rsp = s.rsp := by cases d <;> rfl
@[simp] theorem dataDelta_eip (d : Delta) (s : State) : (dataDelta d s).eip = s.eip := by cases d <;> rfl
@[simp] theorem dataDelta_cycles (d : Delta) (s : State) : (dataDelta d s).cycles = s.cycles := by cases d <;> rfl
@[simp] theorem dataDelta_mem (d : Delta) (s : State) : (dataDelta d s).mem = s.mem := by cases d <;> rfl
@[simp] theorem dataDelta_inq (d : Delta) (s : State) : (dataDelta d s).inq = s.inq := by cases d <;> rfl
@[simp] theorem dataDelta_inClosed (d : Delta) (s : State) : (dataDelta d s).inClosed = s.inClosed := by cases d <;> rfl
@[simp] theorem dataDelta_outq (d : Delta) (s : State) : (dataDelta d s).outq = s.outq := by cases d <;> rfl
@[simp] theorem dataDelta_status (d : Delta) (s : State) : (dataDelta d s).status = s.status := by cases d <;> rfl
@[simp] theorem dataDelta_cfg (d : Delta) (s : State) : (dataDelta d s).cfg = s.cfg := by cases d <;> rfl
@[simp] theorem dataDelta_freeReads (d : Delta) (s : State) : (dataDelta d s).freeReads = s.freeReads := by cases d <;> rfl

@[simp] theorem returnDelta_t (d : Delta) (s : State) : (returnDelta d s).t = s.t := by cases d <;> rfl
@[simp] theorem returnDelta_ds (d : Delta) (s : State) : (returnDelta d s).ds = s.ds := by cases d <;> rfl
@[simp] theorem returnDelta_sp (d : Delta) (s : State) : (returnDelta d s).sp = s.sp := by cases d <;> rfl
@[simp] theorem returnDelta_eip (d : Delta) (s : State) : (returnDelta d s).eip = s.eip := by cases d <;> rfl
@[simp] theorem returnDelta_cycles (d : Delta) (s : State) : (returnDelta d s).cycles = s.cycles := by cases d <;> rfl
@[simp] theorem returnDelta_mem (d : Delta) (s : State) : (returnDelta d s).mem = s.mem := by cases d <;> rfl
@[simp] theorem returnDelta_inq (d : Delta) (s : State) : (returnDelta d s).inq = s.inq := by cases d <;> rfl
@[simp] theorem returnDelta_inClosed (d : Delta) (s : State) : (returnDelta d s).inClosed = s.inClosed := by cases d <;> rfl
@[simp] theorem returnDelta_outq (d : Delta) (s : State) : (returnDelta d s).outq = s.outq := by cases d <;> rfl
@[simp] theorem returnDelta_status (d : Delta) (s : State) : (returnDelta d s).status = s.status := by cases d <;> rfl
@[simp] theorem returnDelta_cfg (d : Delta) (s : State) : (returnDelta d s).cfg = s.cfg := by cases d <;> rfl
@[simp] theorem returnDelta_freeReads (d : Delta) (s : State) : (returnDelta d s).freeReads = s.freeReads := by cases d <;> rfl

@[simp] theorem outputMux_ds (m : OutMux) (t0 out : StackCell) (s : State) : (outputMux m t0 out s).ds = s.ds := by cases m <;> rfl
@[simp] theorem outputMux_sp (m : OutMux) (t0 out : StackCell) (s : State) : (outputMux m t0 out s).sp = s.sp := by cases m <;> rfl
@[simp] theorem outputMux_rs (m : OutMux) (t0 out : StackCell) (s : State) : (outputMux m t0 out s).rs = s.rs := by cases m <;> rfl
@[simp] theorem outputMux_rsp (m : OutMux) (t0 out : StackCell) (s : State) : (outputMux m t0 out s).rsp = s.rsp := by cases m <;> rfl
@[simp] theorem outputMux_eip (m : OutMux) (t0 out : StackCell) (s : State) : (outputMux m t0 out s).eip = s.eip := by cases m <;> rfl
@[simp] theorem outputMux_cycles (m : OutMux) (t0 out : StackCell) (s : State) : (outputMux m t0 out s).cycles = s.cycles := by cases m <;> rfl
@[simp] theorem outputMux_inq (m : OutMux) (t0 out : StackCell) (s : State) : (outputMux m t0 out s).inq = s.inq := by cases m <;> rfl
@[simp] theorem outputMux_inClosed (m : OutMux) (t0 out : StackCell) (s : State) : (outputMux m t0 out s).inClosed = s.inClosed := by cases m <;> rfl
@[simp] theorem outputMux_status (m : OutMux) (t0 out : StackCell) (s : State) : (outputMux m t0 out s).status = s.status := by cases m <;> rfl
@[simp] theorem outputMux_cfg (m : OutMux) (t0 out : StackCell) (s : State) : (outputMux m t0 out s).cfg = s.cfg := by cases m <;> rfl
@[simp] theorem outputMux_freeReads (m : OutMux) (t0 out : StackCell) (s : State) : (outputMux m t0 out s).freeReads = s.freeReads := by cases m <;> rfl

end Sys2Proof.Machine
end

