-- ==== Sys2Proof/Laws/Ops.lean ====
section
/-! SUPPORT. What each shared operation can do, said once: the later proofs cite these and do not unfold the operations. -/

namespace Sys2Proof.Machine

/-! ## Memory access -/

@[simp] theorem validAddr_iff (s : State) (a : StackCell) : s.validAddr a = true ↔ a.toNat < s.cfg.memCells := by
  simp [State.validAddr]

theorem memRead_ok_iff (s : State) (a : StackCell) (w : MemCell) :
    s.memRead a = .ok w ↔ a.toNat < s.cfg.memCells ∧ w = s.cellAt a := by
  unfold State.memRead
  split
  · rename_i h
    simp [(validAddr_iff s a).mp h, eq_comm]
  · rename_i h
    simp [mt (validAddr_iff s a).mpr h]

theorem memRead_error_iff (s : State) (a : StackCell) (k : CoreFault) :
    s.memRead a = .error k ↔ s.cfg.memCells ≤ a.toNat ∧ k = .capacityError a := by
  unfold State.memRead
  split
  · rename_i h
    simp [(validAddr_iff s a).mp h]
  · rename_i h
    have := mt (validAddr_iff s a).mpr h
    simp [eq_comm]
    intro _
    omega

/-! ## I/O -/

/-- Everything a read of the I/O space can come to. -/
theorem ioRead_cases (a : StackCell) (s : State) :
    (∃ b rest, a = ioByteIn ∧ s.inq = b :: rest ∧ ioRead a s = .value (b.setWidth 64) { s with inq := rest }) ∨
    (a = ioByteIn ∧ s.inq = [] ∧ s.inClosed = true ∧ ioRead a s = .raises .ioError) ∨
    (a = ioByteIn ∧ s.inq = [] ∧ s.inClosed = false ∧ ioRead a s = .held) ∨
    (a ≠ ioByteIn ∧ s.cfg.unsupportedIoFatal = true ∧ ioRead a s = .raises (.unsupportedOperation .read a)) ∨
    (a ≠ ioByteIn ∧ s.cfg.unsupportedIoFatal = false ∧
      ioRead a s = .value (freeRead s.freeReads) { s with freeReads := s.freeReads + 1 }) := by
  unfold ioRead
  by_cases ha : a = ioByteIn
  · rcases hq : s.inq with _ | ⟨b, rest⟩
    · cases hc : s.inClosed <;> simp [ha]
    · exact .inl ⟨b, rest, ha, rfl, by simp [ha]⟩
  · cases hf : s.cfg.unsupportedIoFatal <;> simp [ha]

/-! ## What the deltas and the output mux write -/

theorem dataDelta_t (d : Delta) (s : State) : (dataDelta d s).t =
    if d = .minus1 then s.dsAt (s.sp - 1) else if d = .minus2 then s.dsAt (s.sp - 2) else s.t := by
  cases d <;> rfl

theorem dataDelta_ds (d : Delta) (s : State) : (dataDelta d s).ds = if d = .plus1 then s.ds.set s.sp s.t else s.ds := by
  cases d <;> rfl

theorem dataDelta_sp (d : Delta) (s : State) : (dataDelta d s).sp =
    if d = .plus1 then s.sp + 1 else if d = .minus1 then s.sp - 1 else if d = .minus2 then s.sp - 2 else s.sp := by
  cases d <;> rfl

theorem returnDelta_r (d : Delta) (s : State) : (returnDelta d s).r =
    if d = .minus1 then s.rsAt (s.rsp - 1) else if d = .minus2 then s.rsAt (s.rsp - 2) else s.r := by
  cases d <;> rfl

theorem returnDelta_rs (d : Delta) (s : State) : (returnDelta d s).rs = if d = .plus1 then s.rs.set s.rsp s.r else s.rs := by
  cases d <;> rfl

theorem returnDelta_rsp (d : Delta) (s : State) : (returnDelta d s).rsp =
    if d = .plus1 then s.rsp + 1 else if d = .minus1 then s.rsp - 1 else if d = .minus2 then s.rsp - 2 else s.rsp := by
  cases d <;> rfl

theorem outputMux_t (m : OutMux) (t0 out : StackCell) (s : State) :
    (outputMux m t0 out s).t = if m = .t then out else s.t := by cases m <;> rfl

theorem outputMux_r (m : OutMux) (t0 out : StackCell) (s : State) :
    (outputMux m t0 out s).r = if m = .r then out else s.r := by cases m <;> rfl

theorem outputMux_mem (m : OutMux) (t0 out : StackCell) (s : State) :
    (outputMux m t0 out s).mem = if m = .memT then s.mem.writeCell t0.toNat (out.setWidth 16) else s.mem := by
  cases m <;> rfl

theorem outputMux_outq (m : OutMux) (t0 out : StackCell) (s : State) :
    (outputMux m t0 out s).outq = if m = .ioT then s.outq ++ ioOutBytes t0 out else s.outq := by cases m <;> rfl

/-! ## What phases 4 to 7 leave, field by field (R131) -/

section

variable (f : AluFields) (out : StackCell) (s s1 : State)

theorem aluFinish_t : (aluFinish f out s s1).t =
    if f.out = .t then out
    else if f.dd = .minus1 then s1.dsAt (s1.sp - 1) else if f.dd = .minus2 then s1.dsAt (s1.sp - 2) else s1.t := by
  simp only [aluFinish, State.commit_t, outputMux_t, returnDelta_t, dataDelta_t]

theorem aluFinish_ds : (aluFinish f out s s1).ds = if f.dd = .plus1 then s1.ds.set s1.sp s1.t else s1.ds := by
  simp only [aluFinish, State.commit_ds, outputMux_ds, returnDelta_ds, dataDelta_ds]

theorem aluFinish_sp : (aluFinish f out s s1).sp =
    if f.dd = .plus1 then s1.sp + 1 else if f.dd = .minus1 then s1.sp - 1
    else if f.dd = .minus2 then s1.sp - 2 else s1.sp := by
  simp only [aluFinish, State.commit_sp, outputMux_sp, returnDelta_sp, dataDelta_sp]

theorem aluFinish_r : (aluFinish f out s s1).r =
    if f.out = .r then out
    else if f.rd = .minus1 then s1.rsAt (s1.rsp - 1) else if f.rd = .minus2 then s1.rsAt (s1.rsp - 2) else s1.r := by
  simp only [aluFinish, State.commit_r, outputMux_r, returnDelta_r, State.rsAt, dataDelta_r, dataDelta_rs, dataDelta_rsp]

theorem aluFinish_rs : (aluFinish f out s s1).rs = if f.rd = .plus1 then s1.rs.set s1.rsp s1.r else s1.rs := by
  simp only [aluFinish, State.commit_rs, outputMux_rs, returnDelta_rs, dataDelta_r, dataDelta_rs, dataDelta_rsp]

theorem aluFinish_rsp : (aluFinish f out s s1).rsp =
    if f.rd = .plus1 then s1.rsp + 1 else if f.rd = .minus1 then s1.rsp - 1
    else if f.rd = .minus2 then s1.rsp - 2 else s1.rsp := by
  simp only [aluFinish, State.commit_rsp, outputMux_rsp, returnDelta_rsp, dataDelta_rsp]

theorem aluFinish_mem : (aluFinish f out s s1).mem =
    if f.out = .memT then s1.mem.writeCell s.t.toNat (out.setWidth 16) else s1.mem := by
  simp only [aluFinish, State.commit_mem, outputMux_mem, returnDelta_mem, dataDelta_mem]

theorem aluFinish_outq : (aluFinish f out s s1).outq =
    if f.out = .ioT then s1.outq ++ ioOutBytes s.t out else s1.outq := by
  simp only [aluFinish, State.commit_outq, outputMux_outq, returnDelta_outq, dataDelta_outq]

@[simp] theorem aluFinish_eip : (aluFinish f out s s1).eip = nextEip f s := rfl

@[simp] theorem aluFinish_cycles : (aluFinish f out s s1).cycles = s1.cycles + 1 := by simp [aluFinish]

@[simp] theorem aluFinish_inq : (aluFinish f out s s1).inq = s1.inq := by simp [aluFinish]

@[simp] theorem aluFinish_inClosed : (aluFinish f out s s1).inClosed = s1.inClosed := by simp [aluFinish]

@[simp] theorem aluFinish_status : (aluFinish f out s s1).status = s1.status := by simp [aluFinish]

@[simp] theorem aluFinish_cfg : (aluFinish f out s s1).cfg = s1.cfg := by simp [aluFinish]

@[simp] theorem aluFinish_freeReads : (aluFinish f out s s1).freeReads = s1.freeReads := by simp [aluFinish]

end

/-! ## The ALU family -/

/-- Every ALU instruction is the master rule with its operation. -/
theorem exec_ofAlu (op : AluOp) (f : AluFields) (s : State) : exec (Instr.ofAlu op f) s = aluRun op f s := by
  cases op <;> rfl

/-- An instruction is one of the six others or an ALU instruction. -/
theorem instr_cases (i : Instr) :
    i = .halt ∨ (∃ a, i = .jmp a) ∨ (∃ a, i = .zeroBranch a) ∨ (∃ a, i = .call a) ∨
    (∃ m k, i = .litPush m k) ∨ (∃ m k, i = .litAdd m k) ∨ ∃ op f, i = Instr.ofAlu op f := by
  cases i with
  | halt => exact .inl rfl
  | jmp a => exact .inr (.inl ⟨a, rfl⟩)
  | zeroBranch a => exact .inr (.inr (.inl ⟨a, rfl⟩))
  | call a => exact .inr (.inr (.inr (.inl ⟨a, rfl⟩)))
  | litPush m k => exact .inr (.inr (.inr (.inr (.inl ⟨m, k, rfl⟩))))
  | litAdd m k => exact .inr (.inr (.inr (.inr (.inr (.inl ⟨m, k, rfl⟩)))))
  | aluIn f => exact .inr (.inr (.inr (.inr (.inr (.inr ⟨.passIn, f, rfl⟩)))))
  | aluSwap f => exact .inr (.inr (.inr (.inr (.inr (.inr ⟨.swapTN, f, rfl⟩)))))
  | aluNToT f => exact .inr (.inr (.inr (.inr (.inr (.inr ⟨.copyNToT, f, rfl⟩)))))
  | aluAdd f => exact .inr (.inr (.inr (.inr (.inr (.inr ⟨.add, f, rfl⟩)))))
  | aluAnd f => exact .inr (.inr (.inr (.inr (.inr (.inr ⟨.and, f, rfl⟩)))))
  | aluOr f => exact .inr (.inr (.inr (.inr (.inr (.inr ⟨.or, f, rfl⟩)))))
  | aluXor f => exact .inr (.inr (.inr (.inr (.inr (.inr ⟨.xor, f, rfl⟩)))))
  | aluMul f => exact .inr (.inr (.inr (.inr (.inr (.inr ⟨.mul, f, rfl⟩)))))
  | aluNot f => exact .inr (.inr (.inr (.inr (.inr (.inr ⟨.not, f, rfl⟩)))))
  | aluEq f => exact .inr (.inr (.inr (.inr (.inr (.inr ⟨.eq, f, rfl⟩)))))
  | aluLt f => exact .inr (.inr (.inr (.inr (.inr (.inr ⟨.lt, f, rfl⟩)))))
  | aluULt f => exact .inr (.inr (.inr (.inr (.inr (.inr ⟨.ult, f, rfl⟩)))))
  | aluShr f => exact .inr (.inr (.inr (.inr (.inr (.inr ⟨.shr, f, rfl⟩)))))
  | aluShl f => exact .inr (.inr (.inr (.inr (.inr (.inr ⟨.shl, f, rfl⟩)))))
  | aluLoad f => exact .inr (.inr (.inr (.inr (.inr (.inr ⟨.load, f, rfl⟩)))))
  | aluIoRead f => exact .inr (.inr (.inr (.inr (.inr (.inr ⟨.ioRead, f, rfl⟩)))))

@[simp] theorem faultIf_eq_none (c : Bool) (k : CoreFault) : faultIf c k = none ↔ c = false := by
  cases c <;> simp [faultIf]

@[simp] theorem faultIf_eq_some (c : Bool) (k j : CoreFault) : faultIf c k = some j ↔ c = true ∧ k = j := by
  cases c <;> simp [faultIf]

/-- A delta raises no fault exactly when it stays inside the array. -/
theorem deltaFault_eq_none (w : StackId) (d : Delta) (depth cap : Nat) :
    deltaFault w d depth cap = none ↔
      (d = .plus1 → depth < cap) ∧ (d = .minus1 → 1 ≤ depth) ∧ (d = .minus2 → 2 ≤ depth) := by
  cases d <;> simp [deltaFault] <;> omega

/-- No row of the check table fails (R132 rows 1 to 8). -/
theorem aluFault_eq_none (op : AluOp) (f : AluFields) (s : State) :
    aluFault op f s = none ↔
      (usesN op f = true → s.sp ≠ 0) ∧ deltaFault .data f.dd s.sp s.cfg.dcap = none ∧
      deltaFault .ret f.rd s.rsp s.cfg.rcap = none ∧
      (f.inp = .memT → s.validAddr s.t = true) ∧
      (op = .load → s.validAddr (inOperand f.inp s) = true) ∧
      (op = .ioRead → inOperand f.inp s ≠ ioByteIn → s.cfg.unsupportedIoFatal = false) ∧
      (f.out = .memT → s.validAddr s.t = true) ∧
      (f.out = .ioT → ioWritable s.t = false → s.cfg.unsupportedIoFatal = false) := by
  simp only [aluFault, aluChecks, List.findSome?_eq_none_iff, List.mem_cons, List.not_mem_nil, or_false,
    forall_eq_or_imp, forall_eq, id_eq, faultIf_eq_none, Bool.and_eq_false_imp, beq_iff_eq, bne_iff_ne, ne_eq,
    Bool.not_eq_true', Bool.not_eq_false', Bool.and_eq_true, and_imp, beq_eq_false_iff_ne]

/-- Everything an ALU instruction can do: fault by a row of the check table, commit, fault by the end of the input, be held. -/
theorem aluRun_cases (op : AluOp) (f : AluFields) (s : State) :
    (∃ k, aluFault op f s = some k ∧ aluRun op f s = .next (s.raise k)) ∨
    (∃ out s1, aluFault op f s = none ∧ operate op (sample f s) s = .value out s1 ∧
      aluRun op f s = .next (aluFinish f out s s1)) ∨
    (∃ k, aluFault op f s = none ∧ operate op (sample f s) s = .raises k ∧ aluRun op f s = .next (s.raise k)) ∨
    (aluFault op f s = none ∧ operate op (sample f s) s = .held ∧ aluRun op f s = .fault .heldForInput) := by
  rcases hk : aluFault op f s with _ | k
  · rcases ho : operate op (sample f s) s with ⟨out, s1⟩ | k | _
    · exact .inr (.inl ⟨out, s1, rfl, rfl, by simp [aluRun, hk, ho]⟩)
    · exact .inr (.inr (.inl ⟨k, rfl, rfl, by simp [aluRun, hk, ho]⟩))
    · exact .inr (.inr (.inr ⟨rfl, rfl, by simp [aluRun, hk, ho]⟩))
  · exact .inl ⟨k, rfl, by simp [aluRun, hk]⟩

/-- The side effects an operation may leave: on `T`, `DS[SP-1]`, `INQ` and the free-value counter, and nowhere else. -/
theorem operate_value {op : AluOp} {x : Sampled} {s s1 : State} {out : StackCell}
    (h : operate op x s = .value out s1) :
    s1.sp = s.sp ∧ s1.ds.length = s.ds.length ∧ s1.r = s.r ∧ s1.rs = s.rs ∧ s1.rsp = s.rsp ∧ s1.eip = s.eip ∧
      s1.cycles = s.cycles ∧ s1.mem = s.mem ∧ s1.inClosed = s.inClosed ∧ s1.outq = s.outq ∧ s1.status = s.status ∧
      s1.cfg = s.cfg ∧ (s1.inq = s.inq ∨ ∃ b, s.inq = b :: s1.inq) := by
  cases op
  case ioRead =>
    rcases ioRead_cases x.inp s with ⟨b, rest, _, hq, e⟩ | ⟨_, _, _, e⟩ | ⟨_, _, _, e⟩ | ⟨_, _, e⟩ | ⟨_, _, e⟩ <;>
      simp only [operate, e, OpResult.value.injEq, reduceCtorEq] at h
    · obtain ⟨-, rfl⟩ := h
      simp [hq]
    · obtain ⟨-, rfl⟩ := h
      simp
  all_goals
    simp only [operate, OpResult.value.injEq] at h
    obtain ⟨-, rfl⟩ := h
    simp

/-- An operation other than the I/O read always yields a value. -/
theorem operate_not_ioRead {op : AluOp} (h : op ≠ .ioRead) (x : Sampled) (s : State) :
    ∃ out s1, operate op x s = .value out s1 := by
  cases op <;> first | exact absurd rfl h | exact ⟨_, _, rfl⟩

/-- Everything an ALU instruction's next state can be. -/
theorem aluRun_next {op : AluOp} {f : AluFields} {s t : State} (h : aluRun op f s = .next t) :
    (∃ k, t = s.raise k) ∨
    ∃ out s1, aluFault op f s = none ∧ operate op (sample f s) s = .value out s1 ∧ t = aluFinish f out s s1 := by
  rcases aluRun_cases op f s with ⟨k, _, e⟩ | ⟨o, s1, h1, h2, e⟩ | ⟨k, _, _, e⟩ | ⟨_, _, e⟩ <;> rw [e] at h
  · exact .inl ⟨k, (Host.Outcome.next.inj h).symm⟩
  · exact .inr ⟨o, s1, h1, h2, (Host.Outcome.next.inj h).symm⟩
  · exact .inl ⟨k, (Host.Outcome.next.inj h).symm⟩
  · cases h

/-- Everything an instruction's next state can be: a fault, a halt, or the effect of its own rule. -/
theorem exec_next {i : Instr} {s t : State} (h : exec i s = .next t) :
    (∃ k, t = s.raise k) ∨
    (i = .halt ∧ t = { s with status := .halted }) ∨
    (∃ a, i = .jmp a ∧ t = s.commit (targetAddr a)) ∨
    (∃ a, i = .zeroBranch a ∧ 1 ≤ s.sp ∧ t = s.dPop.commit (if s.t = 0 then targetAddr a else s.eip + 1)) ∨
    (∃ a, i = .call a ∧ s.rsp < s.cfg.rcap ∧ t = (s.rPush (s.eip + 1)).commit (targetAddr a)) ∨
    (∃ m k, i = .litPush m k ∧ s.sp < s.cfg.dcap ∧ t = (s.dPush (litValue m k)).commit (s.eip + 1)) ∨
    (∃ m k, i = .litAdd m k ∧ t = ({ s with t := s.t + litValue m k } : State).commit (s.eip + 1)) ∨
    (∃ op f out s1, i = Instr.ofAlu op f ∧ aluFault op f s = none ∧ operate op (sample f s) s = .value out s1 ∧
      t = aluFinish f out s s1) := by
  rcases instr_cases i with rfl | ⟨a, rfl⟩ | ⟨a, rfl⟩ | ⟨a, rfl⟩ | ⟨m, k, rfl⟩ | ⟨m, k, rfl⟩ | ⟨op, f, rfl⟩
  · exact .inr (.inl ⟨rfl, (Host.Outcome.next.inj h).symm⟩)
  · exact .inr (.inr (.inl ⟨a, rfl, (Host.Outcome.next.inj h).symm⟩))
  · simp only [exec, execZeroBranch] at h
    split at h
    · exact .inl ⟨_, (Host.Outcome.next.inj h).symm⟩
    · exact .inr (.inr (.inr (.inl ⟨a, rfl, by omega, (Host.Outcome.next.inj h).symm⟩)))
  · simp only [exec, execCall] at h
    split at h
    · exact .inl ⟨_, (Host.Outcome.next.inj h).symm⟩
    · exact .inr (.inr (.inr (.inr (.inl ⟨a, rfl, by omega, (Host.Outcome.next.inj h).symm⟩))))
  · simp only [exec, execLitPush] at h
    split at h
    · exact .inl ⟨_, (Host.Outcome.next.inj h).symm⟩
    · exact .inr (.inr (.inr (.inr (.inr (.inl ⟨m, k, rfl, by omega, (Host.Outcome.next.inj h).symm⟩)))))
  · exact .inr (.inr (.inr (.inr (.inr (.inr (.inl ⟨m, k, rfl, (Host.Outcome.next.inj h).symm⟩))))))
  · rw [exec_ofAlu] at h
    rcases aluRun_next h with h | ⟨out, s1, h1, h2, h3⟩
    · exact .inl h
    · exact .inr (.inr (.inr (.inr (.inr (.inr (.inr ⟨op, f, out, s1, rfl, h1, h2, h3⟩))))))

/-! ## The step -/

/-- Everything a step can be. -/
theorem step_cases (s : State) :
    (s.status = .halted ∧ step s = .fault .runHalted) ∨
    (∃ k, s.status = .faulted k ∧ step s = .fault (.runFaulted k)) ∨
    (s.status = .running ∧ s.cfg.memCells ≤ s.eip.toNat ∧ step s = .next (s.raise (.capacityError s.eip))) ∨
    (s.status = .running ∧ s.eip.toNat < s.cfg.memCells ∧ step s = exec (decode (s.cellAt s.eip)) s) := by
  rcases hs : s.status with _ | _ | k
  · rcases Nat.lt_or_ge s.eip.toNat s.cfg.memCells with h | h
    · have hf : s.fetch = .ok (s.cellAt s.eip) := (memRead_ok_iff _ _ _).mpr ⟨h, rfl⟩
      exact .inr (.inr (.inr ⟨rfl, h, by simp [step, hs, hf]⟩))
    · have hf : s.fetch = .error (.capacityError s.eip) := (memRead_error_iff _ _ _).mpr ⟨h, rfl⟩
      exact .inr (.inr (.inl ⟨rfl, h, by simp [step, hs, hf]⟩))
  · exact .inl ⟨rfl, by simp [step, hs]⟩
  · exact .inr (.inl ⟨k, rfl, by simp [step, hs]⟩)

/-- A step has a next state only while running: a fetch fault, or the next state of the fetched instruction. -/
theorem step_next {s t : State} (h : step s = .next t) :
    s.status = .running ∧
    ((s.cfg.memCells ≤ s.eip.toNat ∧ t = s.raise (.capacityError s.eip)) ∨
     (s.eip.toNat < s.cfg.memCells ∧ exec (decode (s.cellAt s.eip)) s = .next t)) := by
  rcases step_cases s with ⟨_, e⟩ | ⟨k, _, e⟩ | ⟨hs, hm, e⟩ | ⟨hs, hm, e⟩ <;> rw [e] at h
  · cases h
  · cases h
  · exact ⟨hs, .inl ⟨hm, (Host.Outcome.next.inj h).symm⟩⟩
  · exact ⟨hs, .inr ⟨hm, h⟩⟩

end Sys2Proof.Machine
end

