-- ==== Sys2Proof/Laws/PerInstr.lean ====
section
/-! SUPPORT. Statements about every instruction as syntax, one lemma per constructor. The family `TableRow`: an instruction's word
matches its row of spec/opcode_table.json (30_encoding.md R80). -/

namespace Sys2Proof.Laws.TableRow

/-- The instruction's word, masked, is the match value of its row. -/
def Statement (i : Instr) : Prop := encode i &&& i.tableRow.1 = i.tableRow.2

theorem transfer_row (c : InstrClass) (target : BitVec 13) :
    encodeTransfer Layout.spec c target &&& 0xE000 = placeAt (codeOf Layout.spec.classes c) Layout.spec.cls := by
  have ht : placeAt target Layout.spec.target &&& 0xE000 = 0 := by
    apply BitVec.eq_of_getLsbD_eq
    intro i hi
    have : ∀ j < 16, (0xE000 : MemCell).getLsbD j = decide (13 ≤ j) := by decide
    simp only [placeAt, Layout.spec, BitVec.shiftLeft_zero, BitVec.getLsbD_and, BitVec.getLsbD_setWidth, this i hi]
    by_cases h : 13 ≤ i
    · simp [BitVec.getLsbD_of_ge target i h]
    · simp [h]
  rw [encodeTransfer, BitVec.and_comm, BitVec.and_or_distrib_left, BitVec.and_comm _ (placeAt target _), ht]
  cases c <;> decide

theorem lit_row (add : Bool) (mag : BitVec 12) (shift : BitVec 2) :
    encodeLit Layout.spec add mag shift &&& 0xC000 = 0x8000 ||| placeAt (BitVec.ofBool add) Layout.spec.add := by
  have hm : 0xC000 &&& placeAt mag Layout.spec.mag = 0 := by
    apply BitVec.eq_of_getLsbD_eq
    intro i hi
    have : ∀ j < 16, (0xC000 : MemCell).getLsbD j = decide (14 ≤ j) := by decide
    simp only [placeAt, Layout.spec, BitVec.shiftLeft_zero, BitVec.getLsbD_and, BitVec.getLsbD_setWidth, this i hi]
    by_cases h : 14 ≤ i
    · simp [BitVec.getLsbD_of_ge mag i (by omega)]
    · simp [h]
  have hs : ∀ k : BitVec 2, 0xC000 &&& placeAt k Layout.spec.shift = 0 := by decide
  rw [encodeLit, BitVec.and_comm]
  simp only [BitVec.and_or_distrib_left, hm, hs]
  cases add <;> decide

theorem alu_row (op : AluOp) (f : AluFields) :
    encodeAluWord Layout.spec op f &&& 0xE0F0 = 0x6000 ||| placeAt (codeOf Layout.spec.ops op) Layout.spec.op := by
  obtain ⟨ret, inp, out, rd, dd⟩ := f
  have h1 : 0xE0F0 &&& placeAt (BitVec.ofBool ret) Layout.spec.ret = 0 := by cases ret <;> decide
  have h2 : 0xE0F0 &&& placeAt (codeOf Layout.spec.inputs inp) Layout.spec.inp = 0 := by cases inp <;> decide
  have h3 : 0xE0F0 &&& placeAt (codeOf Layout.spec.outputs out) Layout.spec.out = 0 := by cases out <;> decide
  have h4 : 0xE0F0 &&& placeAt (codeOf Layout.spec.deltas rd) Layout.spec.rd = 0 := by cases rd <;> decide
  have h5 : 0xE0F0 &&& placeAt (codeOf Layout.spec.deltas dd) Layout.spec.dd = 0 := by cases dd <;> decide
  rw [encodeAluWord, BitVec.and_comm]
  simp only [BitVec.and_or_distrib_left, h1, h2, h3, h4, h5]
  cases op <;> decide

theorem halt : Statement .halt := by unfold Statement; decide
theorem jmp (target : BitVec 13) : Statement (.jmp target) := (transfer_row .jump target).trans rfl
theorem zeroBranch (target : BitVec 13) : Statement (.zeroBranch target) :=
  (transfer_row .zeroBranch target).trans rfl
theorem call (target : BitVec 13) : Statement (.call target) := (transfer_row .call target).trans rfl
theorem litPush (mag : BitVec 12) (shift : BitVec 2) : Statement (.litPush mag shift) :=
  (lit_row false mag shift).trans rfl
theorem litAdd (mag : BitVec 12) (shift : BitVec 2) : Statement (.litAdd mag shift) :=
  (lit_row true mag shift).trans rfl
theorem aluIn (f : AluFields) : Statement (.aluIn f) := (alu_row .passIn f).trans rfl
theorem aluSwap (f : AluFields) : Statement (.aluSwap f) := (alu_row .swapTN f).trans rfl
theorem aluNToT (f : AluFields) : Statement (.aluNToT f) := (alu_row .copyNToT f).trans rfl
theorem aluAdd (f : AluFields) : Statement (.aluAdd f) := (alu_row .add f).trans rfl
theorem aluAnd (f : AluFields) : Statement (.aluAnd f) := (alu_row .and f).trans rfl
theorem aluOr (f : AluFields) : Statement (.aluOr f) := (alu_row .or f).trans rfl
theorem aluXor (f : AluFields) : Statement (.aluXor f) := (alu_row .xor f).trans rfl
theorem aluMul (f : AluFields) : Statement (.aluMul f) := (alu_row .mul f).trans rfl
theorem aluNot (f : AluFields) : Statement (.aluNot f) := (alu_row .not f).trans rfl
theorem aluEq (f : AluFields) : Statement (.aluEq f) := (alu_row .eq f).trans rfl
theorem aluLt (f : AluFields) : Statement (.aluLt f) := (alu_row .lt f).trans rfl
theorem aluULt (f : AluFields) : Statement (.aluULt f) := (alu_row .ult f).trans rfl
theorem aluShr (f : AluFields) : Statement (.aluShr f) := (alu_row .shr f).trans rfl
theorem aluShl (f : AluFields) : Statement (.aluShl f) := (alu_row .shl f).trans rfl
theorem aluLoad (f : AluFields) : Statement (.aluLoad f) := (alu_row .load f).trans rfl
theorem aluIoRead (f : AluFields) : Statement (.aluIoRead f) := (alu_row .ioRead f).trans rfl

end Sys2Proof.Laws.TableRow
end

