-- ==== Sys2Proof/Tests/Slice0.lean ====
section
/-! SUPPORT. Tests: words written out from the encodings of 30_encoding.md R61 to R69, single steps taken from the vectors of
95_test_vectors.md, and for each statement with hypotheses a state that meets them. -/

namespace Sys2Proof.Tests

open Sys2Proof Sys2Proof.Machine Sys2Proof.Claim

/-! ## Words and well-formedness -/

/-- The one check of WellFormed refuses the one ill-formed term, and its encoding is another instruction's. -/
theorem test_wellFormed_refuses_jump_to_zero :
    (Instr.jmp 0).wellFormed = false ∧ decode (encode (.jmp 0)) = .halt := by decide

/-- Too few bytes hold no instruction. -/
theorem test_decodeBytes_refuses_truncated :
    decodeBytes [] = .error .truncated ∧ decodeBytes [0x01] = .error .truncated := by decide

/-- The low byte comes first (R46). -/
theorem test_decodeBytes_low_byte_first :
    decodeBytes [0x34, 0xC2, 0x99] = .ok (.litAdd 0x234 0, [0x99]) := by decide

/-- Formats L and J: flag 1, add 0, shift 10, chunk 0x801; flag 1, add 1, shift 01, chunk 0x123; classes 00, 01, 10. -/
theorem test_decode_literals_and_transfers :
    decode 0b1010100000000001 = .litPush 0x801 2 ∧ decode 0b1101000100100011 = .litAdd 0x123 1 ∧
    decode 0b0000000000000000 = .halt ∧ decode 0b0001000000000101 = .jmp 0x1005 ∧
    decode 0b0011000000000101 = .zeroBranch 0x1005 ∧ decode 0b0101000000000101 = .call 0x1005 := by decide

/-- Format A, class 11, operations 0 to 7, every other field 0: `N->IN ... ->T`, deltas 0. -/
theorem test_decode_alu_low_operations :
    let f : AluFields := { ret := false, inp := .n, out := .t, rd := .zero, dd := .zero }
    [0b0110000000000000, 0b0110000000010000, 0b0110000000100000, 0b0110000000110000, 0b0110000001000000,
      0b0110000001010000, 0b0110000001100000, 0b0110000001110000].map decode =
    [.aluIn f, .aluSwap f, .aluNToT f, .aluAdd f, .aluAnd f, .aluOr f, .aluXor f, .aluMul f] := by decide

/-- Operations 8 to 15 with ret 1, in 10, out 01, rd 01, dd 10. -/
theorem test_decode_alu_high_operations :
    let f : AluFields := { ret := true, inp := .memT, out := .r, rd := .plus1, dd := .minus2 }
    [0b0111100110000110, 0b0111100110010110, 0b0111100110100110, 0b0111100110110110, 0b0111100111000110,
      0b0111100111010110, 0b0111100111100110, 0b0111100111110110].map decode =
    [.aluNot f, .aluEq f, .aluLt f, .aluULt f, .aluShr f, .aluShl f, .aluLoad f, .aluIoRead f] := by decide

/-- in 11, out 11, rd 10, dd 11, and in 01, out 10, rd 11, dd 01. -/
theorem test_decode_alu_selectors :
    decode 0b0110111100001011 = .aluIn { ret := false, inp := .r, out := .ioT, rd := .minus2, dd := .minus1 } ∧
    decode 0b0110011000001101 = .aluIn { ret := false, inp := .t, out := .memT, rd := .minus1, dd := .plus1 } := by decide

/-- The host's entry: the bits of a table row as one number. -/
theorem test_decodeTableWord : decodeTableWord 16 0x747F =
    some (.aluMul { ret := true, inp := .t, out := .t, rd := .minus1, dd := .minus1 }) := by decide

/-! ## Single steps (95_test_vectors.md part 2) -/

/-- The data stack `xs`, bottom first, over the conventions of 95_test_vectors.md. -/
def onStack (xs : List StackCell) : State :=
  { State.reset with ds := (0 :: xs.dropLast ++ List.replicate 32 0).take 32, t := xs.getLastD 0, sp := xs.length }

/-- With the return stack `ys` beside it. -/
def onStacks (xs ys : List StackCell) : State :=
  { onStack xs with rs := (0 :: ys.dropLast ++ List.replicate 32 0).take 32, r := ys.getLastD 0, rsp := ys.length }

/-- One step with `w` at cell 0. -/
def after (w : Nat) (s : State) : Option State :=
  match step (s.withFetchWord 16 w) with
  | .next t => some t
  | .fault _ => none
  | .refused _ => none

/-- What most vectors print: data stack, return stack, `EIP`, `CYCLES`. -/
def seen (w : Nat) (s : State) : Option (List StackCell × List StackCell × StackCell × BitVec 64) :=
  (after w s).map (fun t => (t.dstack, t.rstack, t.eip, t.cycles))

theorem test_halt : after 0x0000 (onStack [3]) = some { onStack [3] with status := .halted } := by decide

theorem test_jmp : seen 0x1FFF (onStack []) = some ([], [], 8191, 1) := by decide

theorem test_zeroBranch_taken : seen 0x2005 (onStack [7, 0]) = some ([7], [], 5, 1) := by decide

theorem test_zeroBranch_high_bit_not_taken :
    seen 0x2005 (onStack [7, 0x8000000000000000]) = some ([7], [], 1, 1) := by decide

theorem test_call : (after 0x4004 { onStack [] with r := 9 }).map (fun t => (t.rs[0]?, t.rsp, t.r, t.eip)) =
    some (some 9, 1, 1, 4) := by decide

theorem test_litPush : seen 0xB800 (onStack [7]) = some ([7, 0x800000000000], [], 1, 1) := by decide

theorem test_litPush_overflow :
    let s : State := { onStack [1, 2] with cfg := { Config.initial with dcap := 2 } }
    (after 0x8001 s).map (fun t => (t.status, t.eip, t.cycles, t.sp)) =
      some (.faulted (.stackError .data .overflow), 0, 0, 2) := by decide

theorem test_litAdd_wraps : seen 0xC001 (onStack [trueCell]) = some ([0], [], 1, 1) := by decide

theorem test_litAdd_dead_top : (after 0xC005 { onStack [] with t := 7 }).map (fun t => (t.t, t.sp)) = some (12, 0) := by
  decide

theorem test_in_dup : seen 0x6401 (onStack [6]) = some ([6, 6], [], 1, 1) := by decide

theorem test_in_exit : seen 0x740C (onStacks [1] [9, 7]) = some ([1], [9], 7, 1) := by decide

theorem test_swap : seen 0x6010 (onStack [3, 6]) = some ([6, 3], [], 1, 1) := by decide

theorem test_swap_dead_cell :
    (after 0x6010 { onStack [6] with ds := [0x77] }).map (fun t => (t.t, t.ds[0]?, t.sp)) = some (0x77, some 6, 1) := by
  decide

theorem test_nToT : (after 0x6120 (onStack [3, 6])).map (fun t => (t.dstack, t.r, t.rsp)) = some ([3, 3], 3, 0) := by
  decide

theorem test_add_with_exit : seen 0x743F (onStacks [3, 6] [5]) = some ([9], [], 5, 1) := by decide

theorem test_add_empty_stack_first :
    (after 0x6830 { onStack [] with t := 9000 }).map (fun t => t.status) =
      some (.faulted (.stackError .data .underflow)) := by decide

theorem test_and : seen 0x6443 (onStack [3, 6]) = some ([2], [], 1, 1) := by decide

theorem test_or : seen 0x6453 (onStack [3, 6]) = some ([7], [], 1, 1) := by decide

theorem test_xor : seen 0x6463 (onStack [3, 6]) = some ([5], [], 1, 1) := by decide

theorem test_mul_low_half : seen 0x6473 (onStack [0x123456789, 0xABCDEF]) = some ([0xC379AAAA375DE7], [], 1, 1) := by
  decide

theorem test_not_to_io :
    (after 0x6783 (onStack [5, 0xF1])).map (fun t => (t.dstack, t.outq)) = some ([5], [0x0E]) := by decide

theorem test_eq : seen 0x6493 (onStack [5, 5]) = some ([trueCell], [], 1, 1) := by decide

theorem test_lt_signed : seen 0x64A3 (onStack [0x8000000000000000, 0x7FFFFFFFFFFFFFFF]) = some ([trueCell], [], 1, 1) := by
  decide

theorem test_ult_unsigned : seen 0x64B3 (onStack [0xFFFFFFFFFFFFFC00, 1024]) = some ([0], [], 1, 1) := by decide

theorem test_shr_logical : seen 0x60C3 (onStack [0x8000000000000000, 63]) = some ([1], [], 1, 1) := by decide

theorem test_shr_over_default : seen 0x60C3 (onStack [trueCell, trueCell]) = some ([0], [], 1, 1) := by decide

theorem test_shl : seen 0x60D3 (onStack [0x800000000000, 16]) = some ([0x8000000000000000], [], 1, 1) := by decide

theorem test_load_zero_extends :
    (after 0x64E0 { onStack [0x20] with mem := Memory.writeCell [] 0x20 0xBEEF }).map State.dstack = some [0xBEEF] := by
  decide

theorem test_load_no_wrap : (after 0x6800 (onStack [trueCell])).map (fun t => t.status) =
    some (.faulted (.capacityError trueCell)) := by decide

theorem test_store_truncates : (after 0x6202 (onStack [9, trueCell, 0x30])).map
    (fun t => (t.dstack, t.mem.readCell 0x30, t.mem.readCell 0x31)) = some ([9], 0xFFFF, 0) := by decide

theorem test_ioRead_byte : (after 0x64F0 { onStack [0xE0] with inq := [0xFF, 0x01] }).map
    (fun t => (t.dstack, t.inq)) = some ([0xFF], [0x01]) := by decide

theorem test_ioRead_held :
    after 0x64F0 { onStack [0xE0] with inClosed := false } = none ∧
    (({ onStack [0xE0] with inClosed := false } : State).hostAppend [0x7A]).bind (fun u => seen 0x64F0 u) =
      some ([0x7A], [], 1, 1) := by decide

theorem test_multi_output : (after 0x6302 (onStack [0x6F6C6C6548, 0xF0])).map (fun t => t.outq) =
    some [0x48, 0x65, 0x6C, 0x6C, 0x6F] := by decide

theorem test_multi_output_of_zero : (after 0x6302 (onStack [0, 0xF0])).map (fun t => (t.dstack, t.outq)) =
    some ([], []) := by decide

theorem test_unrecognised_write :
    (after 0x6302 (onStack [1, 0x1F1])).map (fun t => t.status) =
      some (.faulted (.unsupportedOperation .write 0x1F1)) ∧
    (after 0x6302 { onStack [1, 0xE0] with cfg := { Config.initial with unsupportedIoFatal := false } }).map
      (fun t => (t.dstack, t.outq, t.cycles)) = some ([], [], 1) := by decide

/-- The words of `LITERAL` (R96), from the printed table. -/
theorem test_literal_words :
    (encLiteral 4660).map encode = [0x9001, 0xC234] ∧
    (encLiteral 0xFFFFFFFFFFFFFFFF).map encode = [0x8000, 0x6480] ∧
    (encLiteral 0x8000000000000000).map encode =
      [0x9007, 0xCFFF, 0x8030, 0x60D3, 0xFFFF, 0xEFFF, 0xDFFF, 0xCFFF, 0x6480] := by decide

/-- The example of R75, as text. -/
theorem test_assemble_tokens :
    assemble [] 0 (tokensOf "48 imm T->IN IN+N ->T d-1 alu") = .ok [0x8030, 0x6433] := by decide

/-- A single-instruction word flushes the accumulator, a multi-instruction one does not, and an unknown token fails (R73). -/
theorem test_assemble_words :
    let dict : Dictionary := [("over", [0x6001]), ("tuck", [0x6010, 0x6001])]
    assemble dict 0 ["RET", "over"] = .ok [0x7001] ∧
    assemble dict 0 ["RET", "tuck", "alu"] = .ok [0x6010, 0x6001, 0x7000] ∧
    assemble dict 0 ["over", "4096"] = .error (.definitionError "4096") := by decide

/-- A mnemonic comes before a word of its name, and a word before an integer (R73). -/
theorem test_resolve_order :
    resolve [("RET", [0x6400]), ("7", [0x6401])] "RET" = some (.inert 0x1000) ∧
    resolve [("RET", [0x6400]), ("7", [0x6401])] "7" = some (.word [0x6401]) ∧ resolve [] "7" = some (.inert 7) := by decide

/-- Scenario S5 of 95_test_vectors.md, and a program that ends in `exit` (R76 (c)). -/
theorem test_compileProgram :
    let dict : Dictionary := [("u<", [0x64B3]), ("exit", [0x740C])]
    compileProgram dict [.number (-1024), .number 1024, .word "u<"] = .ok [0x83FF, 0x6480, 0x8400, 0x64B3, 0x0000] ∧
    compileProgram dict [.word "exit"] = .ok [0x740C] ∧ compileProgram dict [] = .ok [0x0000] := by decide

/-- Raw equality (R77). -/
theorem test_equals : equals 0x6400 0x6400 = true ∧ equals 0x6400 0x6401 = false ∧
    (Instr.jmp 0).equals .halt = true ∧ (Instr.jmp 1).equals .halt = false := by decide

/-! ## Witnesses: a state that meets the hypotheses of each statement, at a boundary where there is one -/

/-- Fields with no delta, `T->IN ->T`. -/
def plain : AluFields := { ret := false, inp := .t, out := .t, rd := .zero, dd := .zero }

/-- Fields that push both stacks. -/
def pushing : AluFields := { ret := true, inp := .n, out := .r, rd := .plus1, dd := .plus1 }

/-- Fields of a store that pops twice. -/
def storing : AluFields := { ret := false, inp := .n, out := .memT, rd := .zero, dd := .minus2 }

/-- Fields of an I/O write. -/
def writing : AluFields := { ret := false, inp := .n, out := .ioT, rd := .zero, dd := .minus2 }

theorem witness_DecodeFollowsTheBitFields :
    (bitsAt 0xC000 15 1 = 1 ∧ bitsAt 0xC000 14 1 = 1) ∧ (bitsAt 0x8000 15 1 = 1 ∧ bitsAt 0x8000 14 1 = 0) ∧
    ((1 : MemCell) ≠ 0 ∧ bitsAt 1 15 1 = 0 ∧ bitsAt 1 13 2 = 0) ∧ (bitsAt 0x2000 15 1 = 0 ∧ bitsAt 0x2000 13 2 = 1) ∧
    (bitsAt 0x5FFF 15 1 = 0 ∧ bitsAt 0x5FFF 13 2 = 2) ∧ (bitsAt 0x7FFF 15 1 = 0 ∧ bitsAt 0x7FFF 13 2 = 3) := by decide

theorem witness_DecodeEncodeRoundTrip : (Instr.jmp 1).wellFormed = true ∧ (Instr.aluMul pushing).wellFormed = true := by
  decide

theorem witness_EveryWordMatchesOneTableRow : (1 : MemCell) ≠ 0 ∧ (0xE000, 0x0000) ∈ tableRows := by decide

theorem witness_CodecConstructorsCheckRanges :
    (4095 ≤ 4095 ∧ 3 ≤ 3) ∧ encodeAlu .n .add .t (-2) 1 true = .ok 0x7036 := by decide

/-- At the last cell of memory. -/
theorem witness_StepRunsTheDecodedInstruction :
    let s : State := ({ onStack [3, 6] with eip := 8191 } : State).withFetchWord 16 0x6433
    s.status = .running ∧ s.eip.toNat < s.cfg.memCells ∧
    decodeBytes [s.mem.readByte (2 * s.eip.toNat), s.mem.readByte (2 * s.eip.toNat + 1)] =
      .ok (.aluAdd { plain with dd := .minus1 }, []) ∧
    (Instr.aluAdd { plain with dd := .minus1 }).wellFormed = true := by decide

theorem witness_FetchBeyondMemoryFaults :
    State.reset.status = .running ∧ ({ State.reset with eip := 8192 } : State).cfg.memCells ≤ (8192 : StackCell).toNat ∧
    (State.reset.eip.toNat < State.reset.cfg.memCells ∧ State.reset.mem.readCell State.reset.eip.toNat = 0) ∧
    (State.reset.withFetchWord 16 1).mem.readCell 0 ≠ 0 := by decide

theorem witness_NoStepAfterTheEnd : Ended { State.reset with status := .halted } := by unfold Ended; decide

theorem witness_RunningCoreStepsUnlessHeld : State.reset.status = .running := by decide

/-- A commit, a halt and a fault. -/
theorem witness_StepCommitsHaltsOrFaults :
    State.reset.status = .running ∧ (after 0x8001 State.reset).isSome = true ∧
    (after 0 State.reset).map (fun t => t.status) = some .halted ∧
    (after 0x6430 State.reset).map (fun t => t.status) = some (.faulted (.stackError .data .underflow)) := by decide

theorem witness_CyclesAndOutputAreNeverRead : (after 0x6302 (onStack [0x41, 0xF1])).map (fun t => t.outq) = some [0x41] := by
  decide

theorem witness_StreamsMoveOneWay :
    (after 0x64F0 { onStack [0xE0] with inq := [0x41] }).map (fun t => t.inq) = some [] := by decide

/-- A store and an I/O write, each with a next state. -/
theorem witness_OnlyTheOutputMuxWritesOutside :
    (after 0x6202 (onStack [1, 0xF1])).map (fun t => (t.mem.readCell 0xF1, t.outq)) = some (1, []) ∧
    (after 0x6302 (onStack [1, 0xF1])).map (fun t => (t.mem.readCell 0xF1, t.outq)) = some (0, [1]) := by decide

theorem witness_DepthsChangeByTheDeclaredDeltas :
    (onStack [3, 6]).status = .running ∧
    (match exec (.aluIn storing) (onStack [3, 6]) with
      | .next t => decide (t.status = .running)
      | _ => false) = true := by decide

theorem witness_StepKeepsTheInvariant : Inv (onStack [3, 6]) ∧ (after 0x6433 (onStack [3, 6])).isSome = true :=
  ⟨⟨by decide, by decide, by decide, by decide, by decide, by decide, by decide⟩, by decide⟩

theorem witness_RunsKeepTheInvariant :
    ∃ t, Reaches { onStack [3] with inClosed := false } t ∧ t.inq = [0x41] :=
  ⟨{ onStack [3] with inClosed := false, inq := [0x41] }, .append [0x41] (.refl _) (by decide), rfl⟩

theorem witness_LaunchMeetsTheInvariant : LaunchOk Launch.fresh :=
  ⟨by decide, by decide, by decide, by decide, by decide, by decide, by decide⟩

theorem witness_HaltChangesStatusAlone :
    State.reset.status = .running ∧ State.reset.eip.toNat < State.reset.cfg.memCells ∧
    State.reset.mem.readCell State.reset.eip.toNat = 0 := by decide

theorem witness_JumpSetsEipAlone :
    let s : State := { State.reset with cfg := { Config.initial with memCells := 16 } }
    s.status = .running ∧ s.cfg.memCells ≤ (16 : BitVec 13).toNat := by decide

theorem witness_ZeroBranchPopsAndTests : (onStack []).sp = 0 ∧ 1 ≤ (onStack [0]).sp := by decide

theorem witness_CallPushesTheLink :
    ({ State.reset with rsp := 32 } : State).cfg.rcap ≤ 32 ∧ ({ State.reset with rsp := 31 } : State).rsp < 32 := by decide

theorem witness_LitPushPushesTheChunk :
    ({ State.reset with sp := 32 } : State).cfg.dcap ≤ 32 ∧
    ({ State.reset with sp := 31 } : State).sp < State.reset.cfg.dcap := by decide

/-- Both stacks one below their capacity. -/
def nearlyFull : State := { onStack [1] with sp := 31, rsp := 31 }

theorem witness_PassAndComplementComplete :
    DeltasFit plain (onStack []) ∧ MuxesReach plain (onStack []) := by decide

theorem witness_PassAndComplementComplete_pushing :
    DeltasFit pushing nearlyFull ∧ MuxesReach pushing nearlyFull := by decide

theorem witness_PassAndComplementComplete_storing :
    DeltasFit storing (onStack [1, 8191]) ∧ MuxesReach storing (onStack [1, 8191]) := by decide

theorem witness_SwapAndCopyMoveTheTop :
    (1 ≤ (onStack [6]).sp ∧ DeltasFit plain (onStack [6]) ∧ MuxesReach plain (onStack [6])) ∧ (onStack []).sp = 0 := by
  decide

theorem witness_ArithmeticPairsInWithN :
    (1 ≤ (onStack [6]).sp ∧ DeltasFit pushing (onStack [6]) ∧ MuxesReach pushing (onStack [6])) ∧ (onStack []).sp = 0 := by
  decide

theorem witness_ComparisonsLeaveBooleans :
    (1 ≤ (onStack [3, 6]).sp ∧ DeltasFit storing (onStack [3, 6]) ∧ MuxesReach storing (onStack [3, 6])) ∧
    (onStack []).sp = 0 := by decide

/-- The last exact count and the first that goes to `SHIFT_OVER`. -/
theorem witness_ShiftsCountByT :
    (DeltasFit plain (onStack [63]) ∧ MuxesReach plain (onStack [63]) ∧ (onStack [63]).t.toNat < 64) ∧
    DeltasFit plain (onStack [64]) ∧ MuxesReach plain (onStack [64]) ∧ ¬(onStack [64]).t.toNat < 64 := by decide

/-- The last cell of memory and the first address beyond it. -/
theorem witness_LoadReadsTheCellAtIn :
    (DeltasFit plain (onStack [8191]) ∧ MuxesReach plain (onStack [8191]) ∧
      (inOf plain (onStack [8191])).toNat < (onStack [8191]).cfg.memCells) ∧
    DeltasFit plain (onStack [8192]) ∧ MuxesReach plain (onStack [8192]) ∧
      (onStack [8192]).cfg.memCells ≤ (inOf plain (onStack [8192])).toNat := by decide

/-- I/O reads of 0xE0 with a byte waiting, and with none on an open stream. -/
def waiting : State := { onStack [0xE0] with inq := [0xFF] }
def open' : State := { onStack [0xE0] with inClosed := false }

/-- A read of an unrecognised address where that is not fatal. -/
def lenient : State := { onStack [0xE1] with cfg := { Config.initial with unsupportedIoFatal := false } }

theorem witness_IoReadTakesAByte :
    DeltasFit plain waiting ∧ MuxesReach plain waiting ∧ inOf plain waiting = 0xE0 ∧ waiting.inq = 0xFF :: [] := by decide

theorem witness_IoReadTakesAByte_end :
    DeltasFit plain (onStack [0xE0]) ∧ MuxesReach plain (onStack [0xE0]) ∧ inOf plain (onStack [0xE0]) = 0xE0 ∧
    (onStack [0xE0]).inq = [] ∧ (onStack [0xE0]).inClosed = true := by decide

theorem witness_IoReadTakesAByte_held :
    DeltasFit plain open' ∧ MuxesReach plain open' ∧ inOf plain open' = 0xE0 ∧ open'.inq = [] ∧
    open'.inClosed = false := by decide

theorem witness_IoReadTakesAByte_fatal :
    DeltasFit plain (onStack [0xE1]) ∧ MuxesReach plain (onStack [0xE1]) ∧ inOf plain (onStack [0xE1]) ≠ 0xE0 ∧
    (onStack [0xE1]).cfg.unsupportedIoFatal = true := by decide

theorem witness_IoReadTakesAByte_free :
    DeltasFit plain lenient ∧ MuxesReach plain lenient ∧ inOf plain lenient ≠ 0xE0 ∧
    lenient.cfg.unsupportedIoFatal = false := by decide

/-- A failing check, a hold, and a commit; and the order of two failing checks. -/
theorem witness_FirstFailingCheckIsReported :
    firstFailing .add { plain with inp := .memT } { onStack [] with t := 9000 } = some (.stackError .data .underflow) ∧
    (firstFailing .ioRead plain { onStack [0xE0] with inClosed := false } = none ∧
      needsByte .ioRead plain { onStack [0xE0] with inClosed := false }) ∧
    (firstFailing .add plain (onStack [6]) = none ∧ ¬needsByte .add plain (onStack [6])) := by decide

theorem witness_UnrecognisedIoWrite :
    writing.out = .ioT ∧ (onStack [1, 0xF2]).t ≠ 0xF0 ∧ (onStack [1, 0xF2]).t ≠ 0xF1 ∧
    (onStack [1, 0xF2]).cfg.unsupportedIoFatal = true ∧
    (after 0x6302 { onStack [1, 0xF2] with cfg := { Config.initial with unsupportedIoFatal := false } }).isSome = true := by
  decide

theorem witness_ReturnUsesTheSampledR :
    (after 0x740C (onStacks [1] [9, 7])).map (fun t => (t.status, t.eip)) = some (.running, 7) := by decide

theorem witness_CanonicalMemoriesAreEqual :
    Memory.wf (Memory.withWords [] 0 [0x8005, 0]) ∧ Memory.withWords [] 0 [0x8005, 0] = [(0, 0x05), (1, 0x80)] := by decide

/-- The store of program P6: `!` at cell 2 writes cell 3. -/
theorem witness_StoreIsSeenByTheNextFetch :
    let s : State := { onStack [0, 3] with eip := 2 }
    storing.out = .memT ∧ s.status = .running ∧ DeltasFit storing s ∧ MuxesReach storing s ∧
    (if storing.ret then s.r else s.eip + 1) = s.t ∧
    (match exec (.aluIn storing) s with
      | .next _ => true
      | _ => false) = true := by decide

theorem witness_HostLiftsTheHold :
    let s : State := ({ onStack [0xE0] with inClosed := false } : State).withFetchWord 16 0x64F0
    s.status = .running ∧ s.eip.toNat < s.cfg.memCells ∧ decode (s.mem.readCell s.eip.toNat) = .aluIoRead plain ∧
    DeltasFit plain s ∧ MuxesReach plain s ∧ inOf plain s = 0xE0 ∧ s.inq = [] ∧ s.inClosed = false := by decide

theorem witness_StacksPushAndPop :
    Inv (onStacks [3] [7]) ∧ (onStacks [3] [7]).sp < (onStacks [3] [7]).cfg.dcap ∧ 1 ≤ (onStacks [3] [7]).sp ∧
    (onStacks [3] [7]).rsp < (onStacks [3] [7]).cfg.rcap ∧ 1 ≤ (onStacks [3] [7]).rsp :=
  ⟨⟨by decide, by decide, by decide, by decide, by decide, by decide, by decide⟩, by decide⟩

theorem witness_DataWordsHaveTheirStackEffects :
    Inv (onStack [3, 63]) ∧ (onStack [3, 63]).dstack = [] ++ [3, 63] ∧ (63 : StackCell).toNat < 64 ∧
    (onStack [6]).dstack = [] ++ [6] ∧ (onStack [6]).sp < (onStack [6]).cfg.dcap :=
  ⟨⟨by decide, by decide, by decide, by decide, by decide, by decide, by decide⟩, by decide⟩

theorem witness_ReturnAndMemoryWordsHaveTheirStackEffects :
    let s : State := { onStacks [7, 0xE0] [5] with inq := [1] }
    Inv s ∧ s.dstack = [7] ++ [0xE0] ∧ s.dstack = [] ++ [7, 0xE0] ∧ s.rstack = [] ++ [5] ∧ s.rsp < s.cfg.rcap ∧
    s.sp < s.cfg.dcap ∧ (0xE0 : StackCell).toNat < s.cfg.memCells ∧ s.inq = 1 :: [] ∧
    (onStack [0x41, 0xF1]).dstack = [] ++ [0x41, 0xF1] :=
  ⟨⟨by decide, by decide, by decide, by decide, by decide, by decide, by decide⟩, by decide⟩

theorem witness_BareIntegersSpellLiteralsAndTargets :
    bareInteger "4095" = some 4095 ∧ bareInteger "0" = some 0 ∧ bareInteger "4096" = none ∧
    ([] : Dictionary).lookup "4095" = none ∧ (["sh3"], (3 : BitVec 2)) ∈ shiftTokens := by decide

/-- A program whose last word is `exit`, and one whose last word is not. -/
theorem witness_CompiledProgramEndsInHaltOrExit :
    compileProgram [("exit", [0x740C])] [.number 1, .word "exit"] = .ok [0x8001, 0x740C] ∧
    compileProgram [] [.number 1] = .ok [0x8001, 0x0000] := by decide

/-- Exactly two free data-stack cells. -/
theorem witness_LiteralReconstructsItsValue :
    let s : State := { onStack [1] with sp := 30 }
    Inv s ∧ s.status = .running ∧ s.sp + 2 ≤ s.cfg.dcap :=
  ⟨⟨by decide, by decide, by decide, by decide, by decide, by decide, by decide⟩, by decide⟩

end Sys2Proof.Tests
end

section
/-! PROOF. Every step keeps `Inv` (00_scope.md R5, 10_state.md R12, R14, R17): one lemma per operation over the state, then the
ALU master rule, `exec` and `step` assembled from them. -/

namespace Sys2Proof.Proofs

open Sys2Proof.Machine

/-! ## The operations over the state -/

/-- `Inv` speaks of the parameters, the array sizes, the depths and the memory, and of nothing else. -/
theorem inv_of_same_bounds {s t : State} (h : Inv s) (hcfg : t.cfg = s.cfg) (hds : t.ds.length = s.ds.length)
    (hrs : t.rs.length = s.rs.length) (hsp : t.sp = s.sp) (hrsp : t.rsp = s.rsp) (hmem : t.mem = s.mem) : Inv t where
  config := hcfg ▸ h.config
  dsLength := by rw [hds, hcfg, h.dsLength]
  rsLength := by rw [hrs, hcfg, h.rsLength]
  spBound := by rw [hsp, hcfg]; exact h.spBound
  rspBound := by rw [hrsp, hcfg]; exact h.rspBound
  memCanonical := hmem ▸ h.memCanonical
  memInside := by rw [hmem, hcfg]; exact h.memInside

theorem raise_inv {s : State} (k : CoreFault) (h : Inv s) : Inv (s.raise k) :=
  inv_of_same_bounds h rfl rfl rfl rfl rfl rfl

theorem commit_inv {s : State} (eip : StackCell) (h : Inv s) : Inv (s.commit eip) :=
  inv_of_same_bounds h rfl rfl rfl rfl rfl rfl

theorem ioWrite_inv {s : State} (a v : StackCell) (h : Inv s) : Inv (s.ioWrite a v) :=
  inv_of_same_bounds h rfl rfl rfl rfl rfl rfl

theorem dPush_inv {s : State} (v : StackCell) (h : Inv s) (hroom : s.sp < s.cfg.dcap) : Inv (s.dPush v) :=
  { h with
    dsLength := by simpa using h.dsLength
    spBound := hroom }

theorem dPop_inv {s : State} (h : Inv s) : Inv s.dPop :=
  { h with spBound := (Nat.sub_le s.sp 1).trans h.spBound }

theorem rPush_inv {s : State} (v : StackCell) (h : Inv s) (hroom : s.rsp < s.cfg.rcap) : Inv (s.rPush v) :=
  { h with
    rsLength := by simpa using h.rsLength
    rspBound := hroom }

theorem rPop_inv {s : State} (h : Inv s) : Inv s.rPop :=
  { h with rspBound := (Nat.sub_le s.rsp 1).trans h.rspBound }

/-- A store to a valid address stays inside the memory and keeps its canonical form (R17, R43). -/
theorem storeCell_inv {s : State} {a : StackCell} (v : StackCell) (h : Inv s) (ha : a.toNat < s.cfg.memCells) :
    Inv (s.storeCell a v) :=
  { h with
    memCanonical := writeCell_wf _ _ h.memCanonical
    memInside := writeCell_inside _ ha h.memInside }

/-! ## Phases 3 to 7 of the master rule (R131) -/

theorem operate_inv {op : AluOp} {x : Sampled} {s s1 : State} {out : StackCell} (h : Inv s)
    (hop : operate op x s = .value out s1) : Inv s1 := by
  obtain ⟨hsp, hds, -, hrs, hrsp, -, -, hmem, -, -, -, hcfg, -⟩ := operate_value hop
  exact inv_of_same_bounds h hcfg hds (congrArg List.length hrs) hsp hrsp hmem

/-- The data delta is a push that keeps `T`, one pop, or two (R162); only the push needs room. -/
theorem dataDelta_inv {d : Delta} {s : State} (h : Inv s) (hroom : d = .plus1 → s.sp < s.cfg.dcap) :
    Inv (dataDelta d s) := by
  cases d with
  | zero => exact h
  | plus1 => exact dPush_inv s.t h (hroom rfl)
  | minus2 => exact dPop_inv (dPop_inv h)
  | minus1 => exact dPop_inv h

/-- The return delta is a push that keeps `R`, one pop, or two (R163). -/
theorem returnDelta_inv {d : Delta} {s : State} (h : Inv s) (hroom : d = .plus1 → s.rsp < s.cfg.rcap) :
    Inv (returnDelta d s) := by
  cases d with
  | zero => exact h
  | plus1 => exact rPush_inv s.r h (hroom rfl)
  | minus2 => exact rPop_inv (rPop_inv h)
  | minus1 => exact rPop_inv h

theorem outputMux_inv {m : OutMux} {t0 : StackCell} {s : State} (out : StackCell) (h : Inv s)
    (haddr : m = .memT → t0.toNat < s.cfg.memCells) : Inv (outputMux m t0 out s) := by
  cases m with
  | t => exact inv_of_same_bounds h rfl rfl rfl rfl rfl rfl
  | r => exact inv_of_same_bounds h rfl rfl rfl rfl rfl rfl
  | memT => exact storeCell_inv out h (haddr rfl)
  | ioT => exact ioWrite_inv t0 out h

/-- The checks of R132 give the room and the valid address that the pushes and the store of phases 4 to 6 need: an operation
leaves depths and parameters as the checks saw them. -/
theorem aluFinish_inv {op : AluOp} {f : AluFields} {s s1 : State} {out : StackCell} (h : Inv s)
    (hpass : aluFault op f s = none) (hop : operate op (sample f s) s = .value out s1) :
    Inv (aluFinish f out s s1) := by
  obtain ⟨-, hdd, hrd, -, -, -, haddr, -⟩ := (aluFault_eq_none op f s).mp hpass
  obtain ⟨hdroom, -, -⟩ := (deltaFault_eq_none _ _ _ _).mp hdd
  obtain ⟨hrroom, -, -⟩ := (deltaFault_eq_none _ _ _ _).mp hrd
  obtain ⟨hsp, -, -, -, hrsp, -, -, -, -, -, -, hcfg, -⟩ := operate_value hop
  have hdata : Inv (dataDelta f.dd s1) := dataDelta_inv (operate_inv h hop) (by rwa [hsp, hcfg])
  have hret : Inv (returnDelta f.rd (dataDelta f.dd s1)) :=
    returnDelta_inv hdata (by rwa [dataDelta_rsp, dataDelta_cfg, hrsp, hcfg])
  have hout : Inv (outputMux f.out s.t out (returnDelta f.rd (dataDelta f.dd s1))) :=
    outputMux_inv out hret (by simpa [hcfg] using haddr)
  exact commit_inv _ hout

/-! ## Instructions and steps -/

theorem exec_inv {i : Instr} {s t : State} (h : Inv s) (hnext : exec i s = .next t) : Inv t := by
  rcases exec_next hnext with ⟨k, rfl⟩ | ⟨-, rfl⟩ | ⟨a, -, rfl⟩ | ⟨a, -, -, rfl⟩ | ⟨a, -, hroom, rfl⟩ |
    ⟨m, k, -, hroom, rfl⟩ | ⟨m, k, -, rfl⟩ | ⟨op, f, out, s1, -, hpass, hop, rfl⟩
  · exact raise_inv k h
  · exact inv_of_same_bounds h rfl rfl rfl rfl rfl rfl
  · exact commit_inv _ h
  · exact commit_inv _ (dPop_inv h)
  · exact commit_inv _ (rPush_inv _ h hroom)
  · exact commit_inv _ (dPush_inv _ h hroom)
  · exact inv_of_same_bounds h rfl rfl rfl rfl rfl rfl
  · exact aluFinish_inv h hpass hop

theorem step_inv {s t : State} (h : Inv s) (hstep : step s = .next t) : Inv t := by
  obtain ⟨-, ⟨-, rfl⟩ | ⟨-, hexec⟩⟩ := step_next hstep
  · exact raise_inv _ h
  · exact exec_inv h hexec

/-- Settles O16: a fetch fault keeps the bounds, and so does every next state of the fetched instruction. -/
theorem stepKeepsTheInvariant : Obligations.StepKeepsTheInvariant :=
  fun _ _ h hstep => step_inv h hstep

end Sys2Proof.Proofs
end

section
/-! PROOF. `CYCLES` and `OUTQ` are written and never read (10_state.md R16, R18): every operation commutes with putting other values
there, and the streams move one way (R18, R25). -/

namespace Sys2Proof.Proofs

open Sys2Proof.Machine

/-! ## Other values of `CYCLES` and `OUTQ` -/

/-- The state with other values of `CYCLES` and `OUTQ`. -/
def withTrace (s : State) (c : BitVec 64) (q : List Byte) : State := { s with cycles := c, outq := q }

/-- The bytes an output mux sends to `OUTQ` (R156 to R159). -/
def muxBytes (m : OutMux) (t0 out : StackCell) : List Byte := if m = .ioT then ioOutBytes t0 out else []

section

variable (s : State) (c : BitVec 64) (q : List Byte)

theorem fetch_withTrace : (withTrace s c q).fetch = s.fetch := rfl

theorem aluFault_withTrace (op : AluOp) (f : AluFields) : aluFault op f (withTrace s c q) = aluFault op f s := rfl

theorem sample_withTrace (f : AluFields) : sample f (withTrace s c q) = sample f s := rfl

theorem dataDelta_withTrace (d : Delta) : dataDelta d (withTrace s c q) = withTrace (dataDelta d s) c q := by
  cases d <;> rfl

theorem returnDelta_withTrace (d : Delta) : returnDelta d (withTrace s c q) = withTrace (returnDelta d s) c q := by
  cases d <;> rfl

theorem outputMux_withTrace (m : OutMux) (t0 out : StackCell) :
    outputMux m t0 out (withTrace s c q) = withTrace (outputMux m t0 out s) c (q ++ muxBytes m t0 out) := by
  cases m <;> simp [outputMux, muxBytes, withTrace, State.storeCell, State.setCell, State.ioWrite]

theorem aluFinish_withTrace (f : AluFields) (out : StackCell) (s1 : State) :
    aluFinish f out (withTrace s c q) (withTrace s1 c q) =
      withTrace (aluFinish f out s s1) (c + 1) (q ++ muxBytes f.out s.t out) := by
  rw [aluFinish, dataDelta_withTrace, returnDelta_withTrace, outputMux_withTrace]
  rfl

end

theorem aluFinish_outq_append (f : AluFields) (out : StackCell) (s s1 : State) :
    (aluFinish f out s s1).outq = s1.outq ++ muxBytes f.out s.t out := by
  rw [aluFinish_outq, muxBytes]
  split <;> simp

/-- What an operation comes to, with other values of `CYCLES` and `OUTQ` in the state it leaves. -/
def opResultWithTrace (c : BitVec 64) (q : List Byte) : OpResult → OpResult
  | .value out s => .value out (withTrace s c q)
  | .raises k => .raises k
  | .held => .held

theorem ioRead_withTrace (a : StackCell) (s : State) (c : BitVec 64) (q : List Byte) :
    ioRead a (withTrace s c q) = opResultWithTrace c q (ioRead a s) := by
  rcases ioRead_cases a s with ⟨b, rest, ha, hq, e⟩ | ⟨ha, hq, hc, e⟩ | ⟨ha, hq, hc, e⟩ | ⟨ha, hf, e⟩ | ⟨ha, hf, e⟩ <;>
    rw [e] <;> simp [ioRead, withTrace, opResultWithTrace, *]

theorem operate_withTrace (op : AluOp) (x : Sampled) (s : State) (c : BitVec 64) (q : List Byte) :
    operate op x (withTrace s c q) = opResultWithTrace c q (operate op x s) := by
  cases op
  case ioRead => exact ioRead_withTrace x.inp s c q
  all_goals rfl

/-! ## The same outcome, with the difference carried through -/

/-- The two outcomes from `s` and from `s` with `CYCLES = c` and `OUTQ = q` differ in those two elements alone, and the second has
them advanced by what the first has: the same count of cycles and the same bytes. -/
inductive TracesAlike (s : State) (c : BitVec 64) (q : List Byte) : Result → Result → Prop where
  | next {t : State} {more : List Byte} (houtq : t.outq = s.outq ++ more) :
      TracesAlike s c q (.next t) (.next (withTrace t (c + (t.cycles - s.cycles)) (q ++ more)))
  | fault (r : Fault) : TracesAlike s c q (.fault r) (.fault r)

/-- A halt, a fault: neither element changes. -/
theorem tracesAlike_of_unchanged {s t : State} (c : BitVec 64) (q : List Byte) (hcycles : t.cycles = s.cycles)
    (houtq : t.outq = s.outq) : TracesAlike s c q (.next t) (.next (withTrace t c q)) := by
  have h := TracesAlike.next (c := c) (q := q) (more := []) (houtq.trans (List.append_nil _).symm)
  simpa [hcycles] using h

/-- An instruction that commits: one cycle, and its bytes. -/
theorem tracesAlike_of_committed {s t : State} {more : List Byte} (c : BitVec 64) (q : List Byte)
    (hcycles : t.cycles = s.cycles + 1) (houtq : t.outq = s.outq ++ more) :
    TracesAlike s c q (.next t) (.next (withTrace t (c + 1) (q ++ more))) := by
  have h := TracesAlike.next (c := c) (q := q) houtq
  have hone : s.cycles + 1 - s.cycles = 1 := by bv_omega
  rwa [hcycles, hone] at h

/-- An instruction that commits and writes no output. -/
theorem tracesAlike_of_silent {s t : State} (c : BitVec 64) (q : List Byte) (hcycles : t.cycles = s.cycles + 1)
    (houtq : t.outq = s.outq) : TracesAlike s c q (.next t) (.next (withTrace t (c + 1) q)) := by
  simpa using tracesAlike_of_committed (more := []) c q hcycles (by simpa using houtq)

/-- A test that does not look at the two elements. -/
theorem tracesAlike_ite {s : State} {c : BitVec 64} {q : List Byte} {p : Prop} [Decidable p] {x y x' y' : Result}
    (hpos : TracesAlike s c q x x') (hneg : TracesAlike s c q y y') :
    TracesAlike s c q (if p then x else y) (if p then x' else y') := by
  split
  · exact hpos
  · exact hneg

theorem aluRun_tracesAlike (op : AluOp) (f : AluFields) (s : State) (c : BitVec 64) (q : List Byte) :
    TracesAlike s c q (aluRun op f s) (aluRun op f (withTrace s c q)) := by
  unfold aluRun
  rw [aluFault_withTrace, sample_withTrace, operate_withTrace]
  rcases aluFault op f s with _ | k
  · rcases hop : operate op (sample f s) s with ⟨out, s1⟩ | k | _
    · obtain ⟨-, -, -, -, -, -, hcycles, -, -, houtq, -, -, -⟩ := operate_value hop
      simp only [opResultWithTrace, aluFinish_withTrace]
      exact tracesAlike_of_committed c q (by rw [aluFinish_cycles, hcycles]) (by rw [aluFinish_outq_append, houtq])
    · exact tracesAlike_of_unchanged c q rfl rfl
    · exact .fault _
  · exact tracesAlike_of_unchanged c q rfl rfl

theorem exec_tracesAlike (i : Instr) (s : State) (c : BitVec 64) (q : List Byte) :
    TracesAlike s c q (exec i s) (exec i (withTrace s c q)) := by
  rcases instr_cases i with rfl | ⟨a, rfl⟩ | ⟨a, rfl⟩ | ⟨a, rfl⟩ | ⟨m, k, rfl⟩ | ⟨m, k, rfl⟩ | ⟨op, f, rfl⟩
  · exact tracesAlike_of_unchanged c q rfl rfl
  · exact tracesAlike_of_silent c q rfl rfl
  · exact tracesAlike_ite (tracesAlike_of_unchanged c q rfl rfl) (tracesAlike_of_silent c q rfl rfl)
  · exact tracesAlike_ite (tracesAlike_of_unchanged c q rfl rfl) (tracesAlike_of_silent c q rfl rfl)
  · exact tracesAlike_ite (tracesAlike_of_unchanged c q rfl rfl) (tracesAlike_of_silent c q rfl rfl)
  · exact tracesAlike_of_silent c q rfl rfl
  · rw [exec_ofAlu, exec_ofAlu]
    exact aluRun_tracesAlike op f s c q

/-- The status, the fetch and the decoder do not see the two elements; the fetched instruction is `exec_tracesAlike`. -/
theorem step_tracesAlike (s : State) (c : BitVec 64) (q : List Byte) :
    TracesAlike s c q (step s) (step (withTrace s c q)) := by
  have hstatus : (withTrace s c q).status = s.status := rfl
  unfold step
  rw [hstatus, fetch_withTrace]
  rcases s.status with _ | _ | k
  · rcases s.fetch with k | w
    · exact tracesAlike_of_unchanged c q rfl rfl
    · exact exec_tracesAlike (decode w) s c q
  · exact .fault _
  · exact .fault _

/-- Settles O12: the two steps trace alike (`step_tracesAlike`). -/
theorem cyclesAndOutputAreNeverRead : Obligations.CyclesAndOutputAreNeverRead := by
  intro s t c q hstep
  have halike := step_tracesAlike s c q
  rw [hstep] at halike
  generalize hother : step (withTrace s c q) = other at halike
  obtain ⟨houtq⟩ := halike
  exact ⟨_, houtq, hother⟩

/-! ## The streams -/

/-- All that may happen to the input side between two states (R18, R25): at most the first byte is taken, and `IN_CLOSED` and the
parameters stay. -/
structure InputMoves (s t : State) : Prop where
  inq : t.inq = s.inq ∨ ∃ b, s.inq = b :: t.inq
  inClosed : t.inClosed = s.inClosed
  cfg : t.cfg = s.cfg

theorem inputMoves_of_untouched {s t : State} (hinq : t.inq = s.inq) (hclosed : t.inClosed = s.inClosed)
    (hcfg : t.cfg = s.cfg) : InputMoves s t :=
  ⟨.inl hinq, hclosed, hcfg⟩

theorem aluFinish_inputMoves {op : AluOp} {x : Sampled} {s s1 : State} {out : StackCell} (f : AluFields)
    (hop : operate op x s = .value out s1) : InputMoves s (aluFinish f out s s1) := by
  obtain ⟨-, -, -, -, -, -, -, -, hclosed, -, -, hcfg, hinq⟩ := operate_value hop
  exact ⟨by rwa [aluFinish_inq], by rwa [aluFinish_inClosed], by rwa [aluFinish_cfg]⟩

theorem exec_inputMoves {i : Instr} {s t : State} (hnext : exec i s = .next t) : InputMoves s t := by
  rcases exec_next hnext with ⟨k, rfl⟩ | ⟨-, rfl⟩ | ⟨a, -, rfl⟩ | ⟨a, -, -, rfl⟩ | ⟨a, -, -, rfl⟩ |
    ⟨m, k, -, -, rfl⟩ | ⟨m, k, -, rfl⟩ | ⟨op, f, out, s1, -, -, hop, rfl⟩
  case inr.inr.inr.inr.inr.inr.inr => exact aluFinish_inputMoves f hop
  all_goals exact inputMoves_of_untouched rfl rfl rfl

theorem step_inputMoves {s t : State} (hstep : step s = .next t) : InputMoves s t := by
  obtain ⟨-, ⟨-, rfl⟩ | ⟨-, hexec⟩⟩ := step_next hstep
  · exact inputMoves_of_untouched rfl rfl rfl
  · exact exec_inputMoves hexec

/-- Settles O13: that `OUTQ` only grows is the first half of O12; the input side is `step_inputMoves`. -/
theorem streamsMoveOneWay : Obligations.StreamsMoveOneWay := by
  intro s t hstep
  obtain ⟨more, houtq, -⟩ := cyclesAndOutputAreNeverRead s t s.cycles s.outq hstep
  obtain ⟨hinq, hclosed, hcfg⟩ := step_inputMoves hstep
  exact ⟨⟨more, houtq.symm⟩, hinq, hclosed, hcfg⟩

end Sys2Proof.Proofs
end

section
/-! PROOF. The memory as data (10_state.md R17, 20_memory.md R46): the canonical form has one list per content, and a program laid into
memory is read back (R262). -/

namespace Sys2Proof.Proofs

open Sys2Proof.Machine

/-! ## The canonical form -/

theorem readByte_of_unlisted {m : Memory} {a : Nat} (h : ∀ c ∈ m, c.1 ≠ a) : m.readByte a = unlistedByte := by
  induction m with
  | nil => rfl
  | cons c rest ih =>
    obtain ⟨hc, hrest⟩ := List.forall_mem_cons.mp h
    rw [Memory.readByte, if_neg hc, ih hrest]

theorem readByte_cons_self (c : Host.Cell) (m : Memory) : Memory.readByte (c :: m) c.1 = c.2 := if_pos rfl

theorem readByte_cons_ne {c : Host.Cell} {a : Nat} (m : Memory) (h : c.1 ≠ a) :
    Memory.readByte (c :: m) a = m.readByte a := if_neg h

/-- Below the first address of a canonical memory nothing is listed. -/
theorem readByte_below_head {d : Host.Cell} {n : Memory} (hn : Memory.wf (d :: n)) {a : Nat} (ha : a < d.1) :
    Memory.readByte (d :: n) a = unlistedByte := by
  obtain ⟨hrise, -⟩ := List.pairwise_cons.mp hn.1
  refine readByte_of_unlisted (List.forall_mem_cons.mpr ⟨ha.ne', fun c hc => ?_⟩)
  exact (ha.trans (hrise c hc)).ne'

/-- The first address is not listed again. -/
theorem readByte_tail_head {c : Host.Cell} {m : Memory} (hm : Memory.wf (c :: m)) : m.readByte c.1 = unlistedByte := by
  obtain ⟨hrise, -⟩ := List.pairwise_cons.mp hm.1
  exact readByte_of_unlisted fun d hd => (hrise d hd).ne'

theorem wf_tail {c : Host.Cell} {m : Memory} (hm : Memory.wf (c :: m)) : m.wf :=
  ⟨hm.1.of_cons, fun d hd => hm.2 d (List.mem_cons_of_mem c hd)⟩

/-- A memory that reads at the first address of `c :: m` as `c :: m` does lists something at or below it. -/
theorem head_le_of_reads_alike {c d : Host.Cell} {m n : Memory} (hm : Memory.wf (c :: m)) (hn : Memory.wf (d :: n))
    (h : ∀ a, Memory.readByte (c :: m) a = Memory.readByte (d :: n) a) : d.1 ≤ c.1 := by
  by_contra hlt
  have hread := h c.1
  rw [readByte_cons_self, readByte_below_head hn (not_le.mp hlt)] at hread
  exact hm.2 c List.mem_cons_self hread

theorem not_reads_empty {c : Host.Cell} {m : Memory} (hm : Memory.wf (c :: m)) :
    ¬ ∀ a, Memory.readByte (c :: m) a = unlistedByte := fun h =>
  hm.2 c List.mem_cons_self ((readByte_cons_self c m).symm.trans (h c.1))

/-- Settles O39, by induction on the first list: each first address is at most the other, so the first entries are equal, and the
tails read alike because neither lists that address again. -/
theorem canonicalMemoriesAreEqual : Obligations.CanonicalMemoriesAreEqual := by
  intro m
  induction m with
  | nil =>
    intro n _ hn h
    cases n with
    | nil => rfl
    | cons d n => exact absurd (fun a => (h a).symm) (not_reads_empty hn)
  | cons c m ih =>
    intro n hm hn h
    cases n with
    | nil => exact absurd h (not_reads_empty hm)
    | cons d n =>
      have haddr : c.1 = d.1 :=
        le_antisymm (head_le_of_reads_alike hn hm fun a => (h a).symm) (head_le_of_reads_alike hm hn h)
      have hbyte : c.2 = d.2 := by
        have hread := h c.1
        rwa [readByte_cons_self, haddr, readByte_cons_self] at hread
      have htails : ∀ a, Memory.readByte m a = Memory.readByte n a := by
        intro a
        by_cases ha : c.1 = a
        · subst ha
          rw [readByte_tail_head hm, haddr, readByte_tail_head hn]
        · rw [← readByte_cons_ne m ha, h a, readByte_cons_ne n (haddr ▸ ha)]
      rw [Prod.ext haddr hbyte, ih n (wf_tail hm) (wf_tail hn) htails]

/-! ## A program in memory -/

/-- Settles O40, by induction on the words: the first is written to cell `k`, which the rest, laid from `k + 1` upward, leaves. -/
theorem loadedProgramReadsBack : Obligations.LoadedProgramReadsBack := by
  intro ws
  induction ws with
  | nil => intro m k j; simp [Memory.withWords]
  | cons w ws ih =>
    intro m k j
    rw [Memory.withWords, ih]
    rcases lt_trichotomy j k with hlt | rfl | hgt
    · rw [if_neg (by omega), if_neg (by omega), readCell_writeCell_ne _ _ _ _ hlt.ne]
    · rw [if_neg (by omega), if_pos le_rfl, readCell_writeCell_self]
      simp
    · have hindex : j - k = j - (k + 1) + 1 := by omega
      rw [if_pos (Nat.succ_le_of_lt hgt), if_pos hgt.le, readCell_writeCell_ne _ _ _ _ hgt.ne', hindex, List.getElem?_cons_succ]

end Sys2Proof.Proofs
end

section
/-! PROOF. The two stacks as lists (10_state.md R20 to R23, R29). Both are an array, a depth and a cached top, so each fact is proved
once of such a triple. -/

namespace Sys2Proof.Proofs

open Sys2Proof.Machine

/-- The logical stack, bottom first, of an array with a depth and a cached top (R29): cell 0 is never part of it. -/
def stackList (cells : List StackCell) (depth : Nat) (top : StackCell) : List StackCell :=
  if depth = 0 then [] else (cells.take depth).drop 1 ++ [top]

theorem dstack_eq (s : State) : s.dstack = stackList s.ds s.sp s.t := rfl

theorem rstack_eq (s : State) : s.rstack = stackList s.rs s.rsp s.r := rfl

theorem stackList_zero (cells : List StackCell) (top : StackCell) : stackList cells 0 top = [] := rfl

theorem stackList_cons_succ (x top : StackCell) (xs : List StackCell) (n : Nat) :
    stackList (x :: xs) (n + 1) top = xs.take n ++ [top] := by
  simp [stackList]

/-- A push stores the cached top at the depth (R20, R22). -/
theorem stackList_push {cells : List StackCell} {depth : Nat} (top v : StackCell) (hroom : depth < cells.length) :
    stackList (cells.set depth top) (depth + 1) v = stackList cells depth top ++ [v] := by
  cases cells with
  | nil => cases hroom
  | cons x xs =>
    cases depth with
    | zero => simp [stackList_cons_succ, stackList_zero]
    | succ n =>
      have hn : n < xs.length := Nat.lt_of_succ_lt_succ hroom
      have hstored : (xs.set n top).take (n + 1) = xs.take n ++ [top] := by
        simp [List.take_add_one, hn, List.take_set_of_le]
      rw [List.set_cons_succ, stackList_cons_succ, stackList_cons_succ, hstored]

/-- A pop loads the cell below the depth into the cached top (R21, R23). -/
theorem stackList_pop {cells : List StackCell} {depth : Nat} (top : StackCell) (hsome : 1 ≤ depth)
    (hbound : depth ≤ cells.length) :
    stackList cells (depth - 1) (cells.getD (depth - 1) 0) = (stackList cells depth top).dropLast := by
  obtain ⟨n, rfl⟩ : ∃ n, depth = n + 1 := ⟨depth - 1, by omega⟩
  cases cells with
  | nil => cases hbound
  | cons x xs =>
    rw [Nat.add_sub_cancel, stackList_cons_succ, List.dropLast_concat]
    cases n with
    | zero => rfl
    | succ n =>
      have hn : n < xs.length := Nat.le_of_succ_le_succ hbound
      rw [stackList_cons_succ, List.getD_cons_succ, List.getD_eq_getElem _ _ hn, List.take_concat_get' _ _ hn]

/-- What a push stored is what a pop then loads. -/
theorem getD_set_self {cells : List StackCell} {depth : Nat} (top : StackCell) (hroom : depth < cells.length) :
    (cells.set depth top).getD depth 0 = top := by
  simp [hroom]

/-- Settles O44: the invariant puts the depths inside the arrays, and the rest is `stackList_push`, `stackList_pop` and
`getD_set_self` for each stack. -/
theorem stacksPushAndPop : Obligations.StacksPushAndPop := by
  intro s v hinv
  simp only [dstack_eq, rstack_eq]
  refine ⟨fun hroom => ?_, fun hsome => ?_, fun hroom => ?_, fun hsome => ?_⟩
  · have hin : s.sp < s.ds.length := hinv.dsLength ▸ hroom
    exact ⟨stackList_push s.t v hin, getD_set_self s.t hin, rfl, getD_set_self s.t hin⟩
  · exact stackList_pop s.t hsome (hinv.dsLength ▸ hinv.spBound)
  · have hin : s.rsp < s.rs.length := hinv.rsLength ▸ hroom
    exact ⟨stackList_push s.r v hin, getD_set_self s.r hin, rfl⟩
  · exact stackList_pop s.r hsome (hinv.rsLength ▸ hinv.rspBound)

end Sys2Proof.Proofs
end

section
/-! PROOF. The launch (10_state.md R28). -/

namespace Sys2Proof.Proofs

open Sys2Proof.Machine

/-- Every bound of `Inv` on the launched state is a bound of `LaunchOk` on the launch. -/
theorem launch_inv {p : Launch} (h : LaunchOk p) : Inv (State.launch p) where
  config := h.config
  dsLength := h.dsLength
  rsLength := h.rsLength
  spBound := h.spBound
  rspBound := h.rspBound
  memCanonical := h.memCanonical
  memInside := h.memInside

theorem fresh_launchOk : LaunchOk Launch.fresh where
  config := by decide
  dsLength := List.length_replicate
  rsLength := List.length_replicate
  spBound := Nat.zero_le _
  rspBound := Nat.zero_le _
  memCanonical := reset_mem_wf
  memInside := List.forall_mem_nil _

/-- Settles O18: reset is the launch of a fresh Context. -/
theorem launchMeetsTheInvariant : Obligations.LaunchMeetsTheInvariant :=
  ⟨launch_inv fresh_launchOk, fun _ h => launch_inv h⟩

/-- Settles O19: `State.launch` is R28's table as a record, so each element is its value by definition. -/
theorem launchSetsEveryElement : Obligations.LaunchSetsEveryElement :=
  fun _ => ⟨rfl, rfl, rfl, rfl, rfl, rfl, rfl, rfl, rfl, rfl, rfl, rfl, rfl, rfl, rfl, rfl⟩

end Sys2Proof.Proofs
end

section
/-! PROOF. Memory as the instructions see it (20_memory.md R40 to R46, R50, R53): the cell as a byte pair, load after store, the
fetch, and which instructions write memory or the output stream. -/

namespace Sys2Proof.Proofs

open Sys2Proof.Machine Sys2Proof.Claim

/-! ## Cells and loads -/

theorem readByte_writeCell_ne (m : Memory) {k b : Nat} (v : MemCell) (hlow : b ≠ 2 * k) (hhigh : b ≠ 2 * k + 1) :
    (m.writeCell k v).readByte b = m.readByte b := by
  rw [readByte_writeCell, if_neg hlow, if_neg hhigh]

/-- Settles O38: `readByte_writeCell` at the low byte, at the high byte and at any other. -/
theorem cellsAreLittleEndianPairs : Obligations.CellsAreLittleEndianPairs := by
  intro m k v
  refine ⟨?low, ?high, readCell_writeCell_self m k v, fun b => readByte_writeCell_ne m v⟩
  case low => rw [readByte_writeCell, if_pos rfl]
  case high => rw [readByte_writeCell, if_neg (Nat.succ_ne_self _), if_pos rfl]

/-- Settles O37: two cell addresses are equal exactly when they are the same number, so the other cell is another cell of the
image. -/
theorem loadAfterStore : Obligations.LoadAfterStore := by
  intro s a b v
  simp only [State.loadCell, State.cellAt, State.storeCell_mem]
  split
  case isTrue hab => rw [hab, readCell_writeCell_self]
  case isFalse hab => rw [readCell_writeCell_ne _ _ _ _ fun hnat => hab (BitVec.eq_of_toNat_eq hnat).symm]

/-! ## The fetch -/

/-- A running core faults on a fetch beyond memory or executes the cell it fetched (R44, R263). -/
theorem step_of_running {s : State} (hrun : s.status = .running) :
    (s.cfg.memCells ≤ s.eip.toNat ∧ step s = .next (s.raise (.capacityError s.eip))) ∨
    (s.eip.toNat < s.cfg.memCells ∧ step s = exec (decode (s.mem.readCell s.eip.toNat)) s) := by
  rcases step_cases s with ⟨hended, -⟩ | ⟨k, hended, -⟩ | ⟨-, hbeyond⟩ | ⟨-, hinside⟩
  · cases hrun.symm.trans hended
  · cases hrun.symm.trans hended
  · exact .inl hbeyond
  · exact .inr hinside

theorem step_beyond_memory {s : State} (hrun : s.status = .running) (heip : s.cfg.memCells ≤ s.eip.toNat) :
    step s = .next (s.raise (.capacityError s.eip)) := by
  rcases step_of_running hrun with ⟨-, hstep⟩ | ⟨hinside, -⟩
  · exact hstep
  · exact absurd hinside heip.not_gt

theorem step_in_memory {s : State} (hrun : s.status = .running) (heip : s.eip.toNat < s.cfg.memCells) :
    step s = exec (decode (s.mem.readCell s.eip.toNat)) s := by
  rcases step_of_running hrun with ⟨hbeyond, -⟩ | ⟨-, hstep⟩
  · exact absurd heip hbeyond.not_gt
  · exact hstep

theorem decode_zero : decode 0 = .halt := rfl

/-- Settles O8: the two outcomes of the fetch; the zero cell is HALT (R68). -/
theorem fetchBeyondMemoryFaults : Obligations.FetchBeyondMemoryFaults := by
  intro s hrun
  refine ⟨step_beyond_memory hrun, fun heip hzero => ?_, fun heip _ => step_in_memory hrun heip⟩
  rw [step_in_memory hrun heip, hzero, decode_zero]
  rfl

/-! ## What writes memory and the output stream -/

/-- The only write of an ALU instruction to memory is the store of output mux `[T]`, which the checks let through for a valid
`T0` alone (R132 row 7, R158). -/
theorem aluFinish_mem_frame {op : AluOp} {f : AluFields} {s s1 : State} {out : StackCell}
    (hpass : aluFault op f s = none) (hop : operate op (sample f s) s = .value out s1) :
    (aluFinish f out s s1).mem = s.mem ∨
      f.out = .memT ∧ s.t.toNat < s.cfg.memCells ∧ SameMemoryBut s.t.toNat s (aluFinish f out s s1) := by
  obtain ⟨-, -, -, -, -, -, -, hmem, -, -, -, -, -⟩ := operate_value hop
  by_cases hout : f.out = .memT
  · obtain ⟨-, -, -, -, -, -, haddr, -⟩ := (aluFault_eq_none op f s).mp hpass
    refine .inr ⟨hout, (validAddr_iff s s.t).mp (haddr hout), fun b hlow hhigh => ?_⟩
    rw [aluFinish_mem, if_pos hout, hmem, readByte_writeCell_ne _ _ hlow hhigh]
  · exact .inl (by rw [aluFinish_mem, if_neg hout, hmem])

/-- The only write of an ALU instruction to `OUTQ` is that of output mux `io[T]` (R159). -/
theorem aluFinish_outq_kept {op : AluOp} {x : Sampled} {f : AluFields} {s s1 : State} {out : StackCell}
    (hout : f.out ≠ .ioT) (hop : operate op x s = .value out s1) : (aluFinish f out s s1).outq = s.outq := by
  obtain ⟨-, -, -, -, -, -, -, -, -, houtq, -, -, -⟩ := operate_value hop
  rw [aluFinish_outq, if_neg hout, houtq]

/-- Settles O14: only the commit of an ALU instruction can write either, and its two output muxes exclude each other. -/
theorem onlyTheOutputMuxWritesOutside : Obligations.OnlyTheOutputMuxWritesOutside := by
  intro i s t hnext
  rcases exec_next hnext with ⟨k, rfl⟩ | ⟨-, rfl⟩ | ⟨a, -, rfl⟩ | ⟨a, -, -, rfl⟩ | ⟨a, -, -, rfl⟩ |
    ⟨m, k, -, -, rfl⟩ | ⟨m, k, -, rfl⟩ | ⟨op, f, out, s1, rfl, hpass, hop, rfl⟩
  case inr.inr.inr.inr.inr.inr.inr =>
    rcases aluFinish_mem_frame hpass hop with hmem | ⟨hout, haddr, hframe⟩
    · refine ⟨.inl hmem, ?_⟩
      by_cases hout : f.out = .ioT
      · exact .inr ⟨op, f, rfl, hout, hmem⟩
      · exact .inl (aluFinish_outq_kept hout hop)
    · have houtq : (aluFinish f out s s1).outq = s.outq := aluFinish_outq_kept (by simp [hout]) hop
      exact ⟨.inr ⟨op, f, rfl, hout, haddr, hframe, houtq⟩, .inl houtq⟩
  all_goals exact ⟨.inl rfl, .inl rfl⟩

/-! ## A store and the next fetch -/

/-- The input mux reads what the statements call `IN` (R134 to R137). -/
theorem inOperand_eq_inOf (f : AluFields) (s : State) : inOperand f.inp s = inOf f s := by
  unfold inOperand inOf
  cases f.inp <;> rfl

/-- Row 1 of R132 is about an instruction that reads `N` by its input mux or by its operation (R133). -/
theorem usesN_iff (op : AluOp) (f : AluFields) : usesN op f = true ↔ f.inp = .n ∨ opReadsN op := by
  cases op <;> simp [usesN]

/-- The address an output mux `io[T]` may use passes row 8 of R132. -/
theorem unsupportedIo_free_of_reach {s : State} (hreach : s.t = 0xF0 ∨ s.t = 0xF1 ∨ s.cfg.unsupportedIoFatal = false)
    (hnot : ioWritable s.t = false) : s.cfg.unsupportedIoFatal = false := by
  rcases hreach with ht | ht | hfree
  · rw [ht] at hnot
    cases hnot
  · rw [ht] at hnot
    cases hnot
  · exact hfree

/-- Rows 1 to 8 of R132 pass when the deltas fit, the muxes reach and the operation's own operand is there. -/
theorem aluFault_eq_none_of_reach {op : AluOp} {f : AluFields} {s : State} (hfit : DeltasFit f s) (hreach : MuxesReach f s)
    (hread : opReadsN op → 1 ≤ s.sp) (hload : op = .load → (inOf f s).toNat < s.cfg.memCells)
    (hioRead : op = .ioRead → inOf f s ≠ 0xE0 → s.cfg.unsupportedIoFatal = false) : aluFault op f s = none := by
  obtain ⟨hdplus, hdone, hdtwo, hrplus, hrone, hrtwo⟩ := hfit
  obtain ⟨hn, hin, hstore, hio⟩ := hreach
  have hdata : deltaFault .data f.dd s.sp s.cfg.dcap = none := (deltaFault_eq_none _ _ _ _).mpr ⟨hdplus, hdone, hdtwo⟩
  have hret : deltaFault .ret f.rd s.rsp s.cfg.rcap = none := (deltaFault_eq_none _ _ _ _).mpr ⟨hrplus, hrone, hrtwo⟩
  rw [aluFault_eq_none, inOperand_eq_inOf]
  simp only [validAddr_iff]
  refine ⟨fun huses => ?_, hdata, hret, hin, hload, hioRead, hstore, fun hout => unsupportedIo_free_of_reach (hio hout)⟩
  exact Nat.one_le_iff_ne_zero.mp (((usesN_iff op f).mp huses).elim hn hread)

/-- ALU.IN commits `IN` through the output mux, with no side effect before the deltas (R140). -/
theorem exec_aluIn {f : AluFields} {s : State} (hfit : DeltasFit f s) (hreach : MuxesReach f s) :
    exec (.aluIn f) s = .next (aluFinish f (inOf f s) s s) := by
  have hrun : exec (.aluIn f) s = aluRun .passIn f s := exec_ofAlu .passIn f s
  have hpass : aluFault .passIn f s = none :=
    aluFault_eq_none_of_reach hfit hreach (fun hread => absurd hread (by decide)) nofun nofun
  have hvalue : operate .passIn (sample f s) s = .value (inOf f s) s := by
    rw [← inOperand_eq_inOf]
    rfl
  simp only [hrun, aluRun, hpass, hvalue]

/-- Settles O41: the store's address passed the check, so the next step fetches the very cell the store wrote. -/
theorem storeIsSeenByTheNextFetch : Obligations.StoreIsSeenByTheNextFetch := by
  intro f s t hout hrun hfit hreach htarget hnext
  have ht : t = aluFinish f (inOf f s) s s := Host.Outcome.next.inj (hnext.symm.trans (exec_aluIn hfit hreach))
  obtain ⟨-, -, hstore, -⟩ := hreach
  have heip : t.eip = s.t := by rw [ht, aluFinish_eip]; exact htarget
  have hcell : t.mem.readCell s.t.toNat = (inOf f s).setWidth 16 := by
    rw [ht, aluFinish_mem, if_pos hout, readCell_writeCell_self]
  have hstatus : t.status = .running := by rw [ht, aluFinish_status, hrun]
  have hinside : t.eip.toNat < t.cfg.memCells := by rw [heip, ht, aluFinish_cfg]; exact hstore hout
  rw [step_in_memory hstatus hinside, heip, hcell]

end Sys2Proof.Proofs
end

section
/-! PROOF. The fields of a word (30_encoding.md R61 to R63): which field of an encoded word holds what, that a word is the
union of its fields, and the decoder's equation for each format (R68). -/

namespace Sys2Proof.Proofs

open Sys2Proof.Machine Sys2Proof.Claim

/-! ## Fields of a word -/

theorem toNat_fieldAt (w : MemCell) (lo n : Nat) : (fieldAt w lo n).toNat = bitsAt w lo n := by
  rw [fieldAt, BitVec.extractLsb'_toNat, Nat.shiftRight_eq_div_pow]

theorem ofNat_bitsAt (w : MemCell) (lo n : Nat) : BitVec.ofNat n (bitsAt w lo n) = fieldAt w lo n := by
  rw [← toNat_fieldAt, BitVec.ofNat_toNat, BitVec.setWidth_eq]

theorem fieldAt_eq_iff (w : MemCell) (lo : Nat) {n : Nat} (v : BitVec n) : fieldAt w lo n = v ↔ bitsAt w lo n = v.toNat := by
  rw [← toNat_fieldAt, BitVec.toNat_inj]

/-- A flag of a word is its one-bit field. -/
theorem getLsbD_eq_fieldAt (w : MemCell) (i : Nat) : w.getLsbD i = (fieldAt w i 1 == 1#1) := by
  have hbit : ∀ b : BitVec 1, (b == 1#1) = b.getLsbD 0 := by decide
  rw [hbit, getLsbD_fieldAt]
  simp

theorem fieldAt_or (a b : MemCell) (lo n : Nat) : fieldAt (a ||| b) lo n = fieldAt a lo n ||| fieldAt b lo n :=
  BitVec.extractLsb'_or

theorem fieldAt_placeAt_self {lo n : Nat} (v : BitVec n) (hfits : lo + n ≤ 16) : fieldAt (placeAt v lo) lo n = v := by
  apply BitVec.eq_of_getLsbD_eq
  intro j hj
  rw [getLsbD_fieldAt, getLsbD_placeAt v lo (lo + j) (by omega)]
  simp [hj]

/-- A field does not see a value placed wholly above or below it. -/
theorem fieldAt_placeAt_apart {lo n lo' m : Nat} (v : BitVec m) (hfits : lo + n ≤ 16)
    (hapart : lo + n ≤ lo' ∨ lo' + m ≤ lo) : fieldAt (placeAt v lo') lo n = 0#n := by
  apply BitVec.eq_of_getLsbD_eq
  intro j hj
  rw [getLsbD_fieldAt, getLsbD_placeAt v lo' (lo + j) (by omega), BitVec.getLsbD_zero]
  rcases hapart with hbelow | habove
  · simp [show ¬ lo' ≤ lo + j by omega]
  · simp [BitVec.getLsbD_of_ge v (lo + j - lo') (by omega)]

/-- A field placed back keeps the bits of its place and clears the others. -/
theorem getLsbD_placeAt_fieldAt (w : MemCell) (lo n i : Nat) (hi : i < 16) :
    (placeAt (fieldAt w lo n) lo).getLsbD i = (decide (lo ≤ i ∧ i < lo + n) && w.getLsbD i) := by
  rw [getLsbD_placeAt _ _ i hi, getLsbD_fieldAt]
  by_cases hlo : lo ≤ i
  · simp [hlo, Nat.sub_lt_iff_lt_add' hlo]
  · simp [hlo]

/-- Two neighbouring fields, placed back, are one field. -/
theorem placeAt_fieldAt_join (w : MemCell) {lo n hi m : Nat} (hnext : lo + n = hi) :
    placeAt (fieldAt w hi m) hi ||| placeAt (fieldAt w lo n) lo = placeAt (fieldAt w lo (n + m)) lo := by
  apply BitVec.eq_of_getLsbD_eq
  intro i hlt
  have hplace : (hi ≤ i ∧ i < hi + m) ∨ (lo ≤ i ∧ i < lo + n) ↔ lo ≤ i ∧ i < lo + (n + m) := by omega
  simp only [BitVec.getLsbD_or, getLsbD_placeAt_fieldAt _ _ _ i hlt, ← Bool.and_or_distrib_right, ← Bool.decide_or, hplace]

theorem placeAt_fieldAt_whole (w : MemCell) : placeAt (fieldAt w 0 16) 0 = w := by
  apply BitVec.eq_of_getLsbD_eq
  intro i hi
  rw [getLsbD_placeAt_fieldAt w 0 16 i hi]
  simp [hi]

/-- A word is its bits 14 to 0 when its top bit is clear. -/
theorem placeAt_fieldAt_low {w : MemCell} (htop : fieldAt w 15 1 = 0#1) : placeAt (fieldAt w 0 15) 0 = w := by
  have hjoin := placeAt_fieldAt_join w (lo := 0) (n := 15) (hi := 15) (m := 1) rfl
  have hzero : placeAt 0#1 15 = 0#16 := rfl
  rw [htop, hzero, BitVec.zero_or] at hjoin
  exact hjoin.trans (placeAt_fieldAt_whole w)

/-- A number below `2 ^ n` is a field at the bottom of a word. -/
theorem placeAt_ofNat_zero {n x : Nat} (hn : n ≤ 16) (hx : x < 2 ^ n) : placeAt (BitVec.ofNat n x) 0 = BitVec.ofNat 16 x := by
  apply BitVec.eq_of_toNat_eq
  have hx16 : x < 2 ^ 16 := hx.trans_le (Nat.pow_le_pow_right (by decide) hn)
  simp [placeAt, Nat.mod_eq_of_lt hx]

theorem fieldAt_ofNat_iff (x lo : Nat) {n : Nat} (v : BitVec n) :
    fieldAt (BitVec.ofNat 16 x) lo n = v ↔ x % 2 ^ 16 / 2 ^ lo % 2 ^ n = v.toNat := by
  rw [fieldAt_eq_iff, bitsAt, BitVec.toNat_ofNat]

/-! ## The fields of an encoded word

The encoder places each value in a range of bits of its own, so a field sees the value placed there and no other. -/

section

variable (op : AluOp) (f : AluFields) (c : InstrClass) (target : BitVec 13) (add : Bool) (mag : BitVec 12) (shift : BitVec 2)

theorem encodeLit_fields :
    fieldAt (encodeLit Layout.spec add mag shift) 15 1 = 1#1 ∧
    fieldAt (encodeLit Layout.spec add mag shift) 14 1 = BitVec.ofBool add ∧
    fieldAt (encodeLit Layout.spec add mag shift) 12 2 = shift ∧
    fieldAt (encodeLit Layout.spec add mag shift) 0 12 = mag := by
  simp (disch := decide) [encodeLit, Layout.spec, fieldAt_or, fieldAt_placeAt_self, fieldAt_placeAt_apart]

theorem encodeTransfer_fields :
    fieldAt (encodeTransfer Layout.spec c target) 15 1 = 0#1 ∧
    fieldAt (encodeTransfer Layout.spec c target) 13 2 = codeOf Layout.spec.classes c ∧
    fieldAt (encodeTransfer Layout.spec c target) 0 13 = target := by
  simp (disch := decide) [encodeTransfer, Layout.spec, fieldAt_or, fieldAt_placeAt_self, fieldAt_placeAt_apart]

theorem encodeAluWord_fields :
    fieldAt (encodeAluWord Layout.spec op f) 15 1 = 0#1 ∧
    fieldAt (encodeAluWord Layout.spec op f) 13 2 = codeOf Layout.spec.classes .alu ∧
    fieldAt (encodeAluWord Layout.spec op f) 12 1 = BitVec.ofBool f.ret ∧
    fieldAt (encodeAluWord Layout.spec op f) 10 2 = codeOf Layout.spec.inputs f.inp ∧
    fieldAt (encodeAluWord Layout.spec op f) 8 2 = codeOf Layout.spec.outputs f.out ∧
    fieldAt (encodeAluWord Layout.spec op f) 4 4 = codeOf Layout.spec.ops op ∧
    fieldAt (encodeAluWord Layout.spec op f) 2 2 = codeOf Layout.spec.deltas f.rd ∧
    fieldAt (encodeAluWord Layout.spec op f) 0 2 = codeOf Layout.spec.deltas f.dd := by
  simp (disch := decide) [encodeAluWord, Layout.spec, fieldAt_or, fieldAt_placeAt_self, fieldAt_placeAt_apart]

end

/-! ## A word from its fields

Each format names its fields from the top bit down, so joining neighbours one after another gives the whole word. -/

theorem encodeLit_of_fields {w : MemCell} {add : Bool} (hlit : fieldAt w 15 1 = 1#1)
    (hadd : fieldAt w 14 1 = BitVec.ofBool add) : encodeLit Layout.spec add (fieldAt w 0 12) (fieldAt w 12 2) = w := by
  simp (disch := decide) only [encodeLit, Layout.spec, ← hlit, ← hadd, placeAt_fieldAt_join]
  exact placeAt_fieldAt_whole w

theorem encodeTransfer_of_fields {w : MemCell} {c : InstrClass} (hlit : fieldAt w 15 1 = 0#1)
    (hclass : fieldAt w 13 2 = codeOf Layout.spec.classes c) : encodeTransfer Layout.spec c (fieldAt w 0 13) = w := by
  rw [encodeTransfer, ← hclass]
  simp (disch := decide) only [Layout.spec, placeAt_fieldAt_join]
  exact placeAt_fieldAt_low hlit

/-- The operand fields by the bit positions of R63. -/
theorem aluFieldsAt_spec (w : MemCell) :
    aluFieldsAt Layout.spec w =
      { ret := fieldAt w 12 1 == 1#1
        inp := valueOf Layout.spec.inputs (fieldAt w 10 2)
        out := valueOf Layout.spec.outputs (fieldAt w 8 2)
        rd := valueOf Layout.spec.deltas (fieldAt w 2 2)
        dd := valueOf Layout.spec.deltas (fieldAt w 0 2) } := by
  rw [← getLsbD_eq_fieldAt]
  rfl

theorem encodeAluWord_of_fields {w : MemCell} (hlit : fieldAt w 15 1 = 0#1)
    (hclass : fieldAt w 13 2 = codeOf Layout.spec.classes .alu) :
    encodeAluWord Layout.spec (valueOf Layout.spec.ops (fieldAt w 4 4)) (aluFieldsAt Layout.spec w) = w := by
  have hflag : ∀ b : BitVec 1, BitVec.ofBool (b == 1#1) = b := by decide
  rw [encodeAluWord, ← hclass, aluFieldsAt_spec]
  simp only [hflag, input_of_code, output_of_code, op_of_code, delta_of_code]
  simp (disch := decide) only [Layout.spec, placeAt_fieldAt_join]
  exact placeAt_fieldAt_low hlit

/-! ## The decoder's equations (R68) -/

section

variable {w : MemCell}

theorem ne_zero_of_fieldAt {lo n : Nat} (h : fieldAt w lo n ≠ 0#n) : w ≠ 0 := by
  rintro rfl
  exact h (by simp [fieldAt])

/-- The decoder on a literal word. -/
theorem decode_lit (hlit : fieldAt w 15 1 = 1#1) :
    decode w = if fieldAt w 14 1 = 1#1 then .litAdd (fieldAt w 0 12) (fieldAt w 12 2)
      else .litPush (fieldAt w 0 12) (fieldAt w 12 2) := by
  have hw : w ≠ 0 := ne_zero_of_fieldAt (lo := 15) (n := 1) (by simp [hlit])
  simp only [decode, decodeWith, if_neg hw, getLsbD_eq_fieldAt, Layout.spec, hlit, beq_iff_eq, if_true]

end

/-- The instruction of the word `w` when `c` is its class (R64). -/
def ofClass (c : InstrClass) (w : MemCell) : Instr :=
  match c with
  | .jump => .jmp (fieldAt w 0 13)
  | .zeroBranch => .zeroBranch (fieldAt w 0 13)
  | .call => .call (fieldAt w 0 13)
  | .alu => Instr.ofAlu (valueOf Layout.spec.ops (fieldAt w 4 4)) (aluFieldsAt Layout.spec w)

section

variable {w : MemCell} {c : InstrClass}

/-- The decoder on a word that is no literal and not the halt sentinel. -/
theorem decode_of_class (hw : w ≠ 0) (hlit : fieldAt w 15 1 = 0#1) (hclass : fieldAt w 13 2 = codeOf Layout.spec.classes c) :
    decode w = ofClass c w := by
  have hvalue : valueOf Layout.spec.classes (fieldAt w Layout.spec.cls 2) = c :=
    (congrArg _ hclass).trans (code_of_class c)
  have hflag : w.getLsbD Layout.spec.lit = false := by
    rw [getLsbD_eq_fieldAt]
    exact congrArg (· == 1#1) hlit
  rw [decode, decodeWith, if_neg hw, hflag, hvalue]
  cases c <;> rfl

theorem encode_ofClass (hlit : fieldAt w 15 1 = 0#1) (hclass : fieldAt w 13 2 = codeOf Layout.spec.classes c) :
    encode (ofClass c w) = w := by
  cases c with
  | jump => exact encodeTransfer_of_fields hlit hclass
  | zeroBranch => exact encodeTransfer_of_fields hlit hclass
  | call => exact encodeTransfer_of_fields hlit hclass
  | alu => exact (encode_ofAlu _ _).trans (encodeAluWord_of_fields hlit hclass)

end

end Sys2Proof.Proofs
end

section
/-! PROOF. Decoding and encoding are inverse (30_encoding.md R68, R70), and what follows from it: the opcode table (R80) and the
codec's equality (R77). -/

namespace Sys2Proof.Proofs

open Sys2Proof.Machine Sys2Proof.Claim

/-! ## Encode after decode -/

/-- Re-encoding gives the word back (R68), by the flag and the class of the word. -/
theorem encode_decode (w : MemCell) : encode (decode w) = w := by
  by_cases hw : w = 0
  · rw [hw]
    rfl
  rcases BitVec.eq_zero_or_eq_one (fieldAt w 15 1) with hlit | hlit
  · have hclass := (class_of_code (fieldAt w 13 2)).symm
    rw [decode_of_class hw hlit hclass, encode_ofClass hlit hclass]
  · rw [decode_lit hlit]
    rcases BitVec.eq_zero_or_eq_one (fieldAt w 14 1) with hadd | hadd
    · rw [hadd, if_neg (by decide)]
      exact encodeLit_of_fields hlit hadd
    · rw [if_pos hadd]
      exact encodeLit_of_fields hlit hadd

theorem decode_ne_halt {w : MemCell} (hw : w ≠ 0) : decode w ≠ .halt := fun h =>
  hw ((encode_decode w).symm.trans (congrArg encode h))

/-- `jmp 0` has the word of the halt sentinel, so no word decodes to it (R70 (a)). -/
theorem decode_ne_jmp_zero (w : MemCell) : decode w ≠ .jmp 0 := by
  intro h
  have hw : w = 0 := (encode_decode w).symm.trans (congrArg encode h)
  rw [hw, decode_zero] at h
  cases h

theorem wellFormed_iff (i : Instr) : i.wellFormed = true ↔ i ≠ .jmp 0 := by
  cases i <;> simp [Instr.wellFormed]

/-- Settles O4: `jmp 0` is the only term that is not well formed. -/
theorem everyWordIsAnInstruction : Obligations.EveryWordIsAnInstruction :=
  fun w => (wellFormed_iff _).mpr (decode_ne_jmp_zero w)

/-! ## Decode after encode -/

theorem decode_encodeLit (add : Bool) (mag : BitVec 12) (shift : BitVec 2) :
    decode (encodeLit Layout.spec add mag shift) = if add then .litAdd mag shift else .litPush mag shift := by
  obtain ⟨hlit, hadd, hshift, hmag⟩ := encodeLit_fields add mag shift
  rw [decode_lit hlit, hadd, hshift, hmag]
  cases add <;> rfl

theorem decode_encodeAluWord (op : AluOp) (f : AluFields) : decode (encodeAluWord Layout.spec op f) = Instr.ofAlu op f := by
  obtain ⟨hlit, hclass, hret, hinp, hout, hop, hrd, hdd⟩ := encodeAluWord_fields op f
  have hw : encodeAluWord Layout.spec op f ≠ 0 := ne_zero_of_fieldAt (by rw [hclass]; decide)
  have hflag : ∀ b : Bool, (BitVec.ofBool b == 1#1) = b := by decide
  rw [decode_of_class hw hlit hclass, ofClass, hop, aluFieldsAt_spec, hret, hinp, hout, hrd, hdd, hflag, code_of_op,
    code_of_input, code_of_output, code_of_delta, code_of_delta]

/-- Every instruction but `jmp 0` is read back from its word (R61 to R63). -/
theorem decode_encode {i : Instr} (hi : i ≠ .jmp 0) : decode (encode i) = i := by
  rcases instr_cases i with rfl | ⟨a, rfl⟩ | ⟨a, rfl⟩ | ⟨a, rfl⟩ | ⟨m, k, rfl⟩ | ⟨m, k, rfl⟩ | ⟨op, f, rfl⟩
  · exact decode_zero
  · obtain ⟨hlit, hclass, htarget⟩ := encodeTransfer_fields .jump a
    have ha : a ≠ 0 := fun h => hi (congrArg Instr.jmp h)
    have hw : encodeTransfer Layout.spec .jump a ≠ 0 := ne_zero_of_fieldAt (by rwa [htarget])
    exact (decode_of_class hw hlit hclass).trans (congrArg Instr.jmp htarget)
  · obtain ⟨hlit, hclass, htarget⟩ := encodeTransfer_fields .zeroBranch a
    have hw : encodeTransfer Layout.spec .zeroBranch a ≠ 0 := ne_zero_of_fieldAt (by rw [hclass]; decide)
    exact (decode_of_class hw hlit hclass).trans (congrArg Instr.zeroBranch htarget)
  · obtain ⟨hlit, hclass, htarget⟩ := encodeTransfer_fields .call a
    have hw : encodeTransfer Layout.spec .call a ≠ 0 := ne_zero_of_fieldAt (by rw [hclass]; decide)
    exact (decode_of_class hw hlit hclass).trans (congrArg Instr.call htarget)
  · exact decode_encodeLit false m k
  · exact decode_encodeLit true m k
  · rw [encode_ofAlu]
    exact decode_encodeAluWord op f

/-- The two bytes of a word, put together again (R46). -/
theorem bytes_append (w : MemCell) : w.extractLsb' 8 8 ++ w.extractLsb' 0 8 = w :=
  (BitVec.extractLsb'_append_extractLsb'_eq_extractLsb' (start₁ := 0) (len₁ := 8) rfl).trans BitVec.extractLsb'_eq_self

theorem decodeBytes_encodeBytes (i : Instr) (rest : List Byte) :
    decodeBytes (encodeBytes i ++ rest) = .ok (decode (encode i), rest) := by
  have hbytes : encodeBytes i ++ rest = (encode i).extractLsb' 0 8 :: (encode i).extractLsb' 8 8 :: rest := rfl
  rw [hbytes, decodeBytes, bytes_append]

/-- Settles O3: `decode_encode`, and the two bytes are the word. -/
theorem decodeEncodeRoundTrip : Obligations.DecodeEncodeRoundTrip := by
  intro i hwf
  have hdecode : decode (encode i) = i := decode_encode ((wellFormed_iff i).mp hwf)
  refine ⟨hdecode, fun rest => ?_⟩
  rw [decodeBytes_encodeBytes, hdecode]

/-! ## The bit fields -/

theorem opTable_getElem (c : BitVec 4) : opTable[c.toNat]? = some (valueOf Layout.spec.ops c) := by
  revert c; decide

theorem inTable_getElem (c : BitVec 2) : inTable[c.toNat]? = some (valueOf Layout.spec.inputs c) := by
  revert c; decide

theorem outTable_getElem (c : BitVec 2) : outTable[c.toNat]? = some (valueOf Layout.spec.outputs c) := by
  revert c; decide

theorem deltaTable_getElem (c : BitVec 2) : deltaTable[c.toNat]? = some (valueOf Layout.spec.deltas c) := by
  revert c; decide

theorem beq_one_eq_toNat (b : BitVec 1) : (b == 1#1) = (b.toNat == 1) := by
  revert b; decide

/-- Settles O2: each clause is the decoder's equation for that format, and re-encoding is `encode_decode`. -/
theorem decodeFollowsTheBitFields : Obligations.DecodeFollowsTheBitFields := by
  intro w
  have hword {lo n v : Nat} (hbits : bitsAt w lo n = v) : fieldAt w lo n = BitVec.ofNat n v := by
    rw [← hbits, ofNat_bitsAt]
  refine ⟨?halt, ?literal, ?jump, ?branch, ?call, ?alu, encode_decode w⟩
  case halt => rintro rfl; exact decode_zero
  case literal =>
    intro hlit
    simp only [decode_lit (hword hlit), fieldAt_eq_iff, ofNat_bitsAt]
    rfl
  case jump =>
    intro hw hlit hclass
    rw [decode_of_class (c := .jump) hw (hword hlit) (hword hclass), ofNat_bitsAt, ofClass]
  case branch =>
    intro hlit hclass
    have hw : w ≠ 0 := ne_zero_of_fieldAt (by rw [hword hclass]; decide)
    rw [decode_of_class (c := .zeroBranch) hw (hword hlit) (hword hclass), ofNat_bitsAt, ofClass]
  case call =>
    intro hlit hclass
    have hw : w ≠ 0 := ne_zero_of_fieldAt (by rw [hword hclass]; decide)
    rw [decode_of_class (c := .call) hw (hword hlit) (hword hclass), ofNat_bitsAt, ofClass]
  case alu =>
    intro hlit hclass
    have hw : w ≠ 0 := ne_zero_of_fieldAt (by rw [hword hclass]; decide)
    refine ⟨_, _, decode_of_class (c := .alu) hw (hword hlit) (hword hclass), ?_⟩
    rw [aluFieldsAt_spec]
    simp only [← toNat_fieldAt, opTable_getElem, inTable_getElem, outTable_getElem, deltaTable_getElem, beq_one_eq_toNat,
      and_self]

/-- Settles O1: the decoder on the sixteen printed words. -/
theorem printedWordsDecode : Obligations.PrintedWordsDecode := by
  unfold Obligations.PrintedWordsDecode
  decide

/-! ## The opcode table -/

theorem tableRow_ofAlu (op : AluOp) (f : AluFields) :
    (Instr.ofAlu op f).tableRow = (0xE0F0, 0x6000 ||| placeAt (codeOf Layout.spec.ops op) Layout.spec.op) := by
  cases op <;> rfl

/-- Every instruction's word matches the instruction's own row. -/
theorem encode_matches_tableRow (i : Instr) : encode i &&& i.tableRow.1 = i.tableRow.2 := by
  rcases instr_cases i with rfl | ⟨a, rfl⟩ | ⟨a, rfl⟩ | ⟨a, rfl⟩ | ⟨m, k, rfl⟩ | ⟨m, k, rfl⟩ | ⟨op, f, rfl⟩
  · exact Laws.TableRow.halt
  · exact Laws.TableRow.jmp a
  · exact Laws.TableRow.zeroBranch a
  · exact Laws.TableRow.call a
  · exact Laws.TableRow.litPush m k
  · exact Laws.TableRow.litAdd m k
  · rw [encode_ofAlu, tableRow_ofAlu]
    exact Laws.TableRow.alu_row op f

theorem decode_matches_tableRow (w : MemCell) : w &&& (decode w).tableRow.1 = (decode w).tableRow.2 := by
  have h := encode_matches_tableRow (decode w)
  rwa [encode_decode] at h

theorem tableRow_mem_tableRows {i : Instr} (hi : i ≠ .halt) : i.tableRow ∈ tableRows := by
  have halu : ∀ c : BitVec 4, ((0xE0F0, 0x6000 ||| placeAt c Layout.spec.op) : MemCell × MemCell) ∈ tableRows := by decide
  rcases instr_cases i with rfl | ⟨a, rfl⟩ | ⟨a, rfl⟩ | ⟨a, rfl⟩ | ⟨m, k, rfl⟩ | ⟨m, k, rfl⟩ | ⟨op, f, rfl⟩
  · exact absurd rfl hi
  · simp [Instr.tableRow, tableRows]
  · simp [Instr.tableRow, tableRows]
  · simp [Instr.tableRow, tableRows]
  · simp [Instr.tableRow, tableRows]
  · simp [Instr.tableRow, tableRows]
  · rw [tableRow_ofAlu]
    exact halu _

/-- Two rows ask different values of the bits that both masks cover. -/
abbrev RowsApart (a b : MemCell × MemCell) : Prop := a.2 &&& b.1 ≠ b.2 &&& a.1

theorem tableRows_apart : tableRows.Pairwise RowsApart := by decide

theorem tableRow_unique {w : MemCell} {a b : MemCell × MemCell} (ha : a ∈ tableRows) (hb : b ∈ tableRows)
    (hwa : w &&& a.1 = a.2) (hwb : w &&& b.1 = b.2) : a = b := by
  have hcommon : a.2 &&& b.1 = b.2 &&& a.1 := by
    rw [← hwa, ← hwb, BitVec.and_assoc, BitVec.and_assoc, BitVec.and_comm a.1]
  have hsymm : Std.Symm RowsApart := ⟨fun _ _ => Ne.symm⟩
  by_contra hne
  exact tableRows_apart.forall ha hb hne hcommon

/-- Settles O5: the word matches the row of its instruction, and the rows exclude each other. -/
theorem everyWordMatchesOneTableRow : Obligations.EveryWordMatchesOneTableRow := by
  refine ⟨by decide, fun w hw => ?_⟩
  have hown : (decode w).tableRow ∈ tableRows := tableRow_mem_tableRows (decode_ne_halt hw)
  refine ⟨hown, fun row hrow => ⟨fun hmatch => ?_, ?_⟩⟩
  · exact tableRow_unique hrow hown hmatch (decode_matches_tableRow w)
  · rintro rfl
    exact decode_matches_tableRow w

/-! ## The codec's equality -/

theorem encode_jmp_zero : encode (.jmp 0) = encode .halt := rfl

/-- Settles O49: a term other than `jmp 0` is the decoding of its word, and `jmp 0` has the word of `halt`. -/
theorem rawEqualityIdentifiesHaltAndJumpToZero : Obligations.RawEqualityIdentifiesHaltAndJumpToZero := by
  refine ⟨fun a b => ?words, fun i j => ?terms⟩
  case words => rw [equals, beq_iff_eq, BitVec.toNat_inj]
  case terms =>
    rw [Instr_equals_iff]
    constructor
    · intro h
      by_cases hi : i = .jmp 0
      · by_cases hj : j = .jmp 0
        · exact .inl (hi.trans hj.symm)
        · rw [hi, encode_jmp_zero] at h
          exact .inr (.inr ⟨hi, by rw [← decode_encode hj, ← h, decode_encode (by simp)]⟩)
      · by_cases hj : j = .jmp 0
        · rw [hj, encode_jmp_zero] at h
          exact .inr (.inl ⟨by rw [← decode_encode hi, h, decode_encode (by simp)], hj⟩)
        · exact .inl (by rw [← decode_encode hi, h, decode_encode hj])
    · rintro (rfl | ⟨rfl, rfl⟩ | ⟨rfl, rfl⟩) <;> rfl

end Sys2Proof.Proofs
end

section
/-! PROOF. The codec's checked constructors (30_encoding.md R77, R71 (d), R69). -/

namespace Sys2Proof.Proofs

open Sys2Proof.Machine Sys2Proof.Claim

/-! ## Words as numbers -/

/-- A format-L word as a number (R61). -/
theorem encodeLit_ofNat (add : Bool) {v k : Nat} (hv : v ≤ 4095) (hk : k ≤ 3) :
    encodeLit Layout.spec add (BitVec.ofNat 12 v) (BitVec.ofNat 2 k) =
      BitVec.ofNat 16 (0x8000 + (if add then 0x4000 else 0) + 4096 * k + v) := by
  have hplace : (if add then 0x4000 else 0) = 0x4000 * (BitVec.ofBool add).toNat := by cases add <;> rfl
  have hbool : (BitVec.ofBool add).toNat < 2 := (BitVec.ofBool add).isLt
  generalize hx : 0x8000 + (if add then 0x4000 else 0) + 4096 * k + v = x
  have hlit : fieldAt (BitVec.ofNat 16 x) 15 1 = 1#1 := by
    rw [fieldAt_ofNat_iff, BitVec.toNat_ofNat]
    omega
  have hadd : fieldAt (BitVec.ofNat 16 x) 14 1 = BitVec.ofBool add := by
    rw [fieldAt_ofNat_iff]
    omega
  have hshift : fieldAt (BitVec.ofNat 16 x) 12 2 = BitVec.ofNat 2 k := by
    rw [fieldAt_ofNat_iff, BitVec.toNat_ofNat]
    omega
  have hmag : fieldAt (BitVec.ofNat 16 x) 0 12 = BitVec.ofNat 12 v := by
    rw [fieldAt_ofNat_iff, BitVec.toNat_ofNat]
    omega
  rw [← hmag, ← hshift, encodeLit_of_fields hlit hadd]

/-- A format-J word as a number (R62). -/
theorem encodeTransfer_ofNat {c : InstrClass} (hc : (codeOf Layout.spec.classes c).toNat ≤ 2) {v : Nat} (hv : v ≤ 8191) :
    encodeTransfer Layout.spec c (BitVec.ofNat 13 v) =
      BitVec.ofNat 16 (8192 * (codeOf Layout.spec.classes c).toNat + v) := by
  generalize hx : 8192 * (codeOf Layout.spec.classes c).toNat + v = x
  have hlit : fieldAt (BitVec.ofNat 16 x) 15 1 = 0#1 := by
    rw [fieldAt_ofNat_iff, BitVec.toNat_ofNat]
    omega
  have hclass : fieldAt (BitVec.ofNat 16 x) 13 2 = codeOf Layout.spec.classes c := by
    rw [fieldAt_ofNat_iff]
    omega
  have htarget : fieldAt (BitVec.ofNat 16 x) 0 13 = BitVec.ofNat 13 v := by
    rw [fieldAt_ofNat_iff, BitVec.toNat_ofNat]
    omega
  rw [← htarget, encodeTransfer_of_fields hlit hclass]

/-! ## Literals and transfers -/

theorem encodeLiteral_of_range (add : Bool) {v k : Nat} (hv : v ≤ 4095) (hk : k ≤ 3) :
    encodeLiteral v k add = .ok (BitVec.ofNat 16 (0x8000 + (if add then 0x4000 else 0) + 4096 * k + v)) := by
  rw [encodeLiteral, if_neg hv.not_gt, if_neg hk.not_gt, encodeLit_ofNat add hv hk]

theorem encodeLiteral_ok_iff (v k : Nat) (add : Bool) : (∃ w, encodeLiteral v k add = .ok w) ↔ v ≤ 4095 ∧ k ≤ 3 := by
  constructor
  · rintro ⟨w, hok⟩
    unfold encodeLiteral at hok
    split at hok
    · cases hok
    · split at hok
      · cases hok
      · omega
  · rintro ⟨hv, hk⟩
    exact ⟨_, encodeLiteral_of_range add hv hk⟩

/-- The class of a jump kind (R64). -/
def classOfKind : JumpKind → InstrClass
  | .jmp => .jump
  | .zeroBranch => .zeroBranch
  | .call => .call

theorem encodeJump_eq (kind : JumpKind) (v : Nat) :
    encodeJump kind v = if v ≤ 8191
      then .ok (BitVec.ofNat 16 (8192 * (codeOf Layout.spec.classes (classOfKind kind)).toNat + v)) else .error .target := by
  unfold encodeJump
  by_cases hv : v ≤ 8191
  · rw [if_neg hv.not_gt, if_pos hv]
    cases kind <;> exact congrArg Except.ok (encodeTransfer_ofNat (by decide) hv)
  · rw [if_pos (not_le.mp hv), if_neg hv]

/-! ## ALU words -/

theorem deltaOfInt_deltaValue (x : Delta) : deltaOfInt (deltaValue x) = .ok x := by cases x <;> rfl

/-- A signed number is accepted as the delta of that value (R69). -/
theorem deltaOfInt_ok_iff (d : Int) (x : Delta) : deltaOfInt d = .ok x ↔ deltaValue x = d := by
  refine ⟨fun hok => ?_, fun hvalue => hvalue ▸ deltaOfInt_deltaValue x⟩
  unfold deltaOfInt at hok
  split_ifs at hok with hzero hplus1 hminus1 hminus2 <;> cases hok
  · exact hzero.symm
  · exact hplus1.symm
  · exact hminus1.symm
  · exact hminus2.symm

theorem deltaOfInt_total_iff (d : Int) : (∃ x, deltaOfInt d = .ok x) ↔ -2 ≤ d ∧ d ≤ 1 := by
  simp only [deltaOfInt_ok_iff]
  constructor
  · rintro ⟨x, rfl⟩
    cases x <;> decide
  · rintro ⟨hlow, hhigh⟩
    obtain rfl | rfl | rfl | rfl : d = -2 ∨ d = -1 ∨ d = 0 ∨ d = 1 := by omega
    · exact ⟨.minus2, rfl⟩
    · exact ⟨.minus1, rfl⟩
    · exact ⟨.zero, rfl⟩
    · exact ⟨.plus1, rfl⟩

/-- The constructor succeeds exactly with two deltas it accepts, and its word is the format-A word of the operands. -/
theorem encodeAlu_ok_iff (m : InMux) (op : AluOp) (o : OutMux) (d r : Int) (ret : Bool) (w : MemCell) :
    encodeAlu m op o d r ret = .ok w ↔ ∃ dd rd, deltaOfInt d = .ok dd ∧ deltaOfInt r = .ok rd ∧
      encodeAluWord Layout.spec op { ret := ret, inp := m, out := o, rd := rd, dd := dd } = w := by
  unfold encodeAlu
  rcases deltaOfInt d with e | dd <;> rcases deltaOfInt r with e' | rd <;> simp

/-- Settles O6: each constructor by its own lemma; the word of `encode_alu` decodes as every format-A word does. -/
theorem codecConstructorsCheckRanges : Obligations.CodecConstructorsCheckRanges := by
  refine ⟨encodeLiteral_ok_iff, fun v k add hv hk => encodeLiteral_of_range add hv hk, fun v => ?jmp, fun v => ?zeroBranch,
    fun v => ?call, fun m op o d r ret => ?alu, fun m op o d r ret w hok => ?word⟩
  case jmp =>
    have hzero : 8192 * (codeOf Layout.spec.classes (classOfKind .jmp)).toNat + v = v := Nat.zero_add v
    rw [encodeJump_eq, hzero]
  case zeroBranch => exact encodeJump_eq .zeroBranch v
  case call => exact encodeJump_eq .call v
  case alu =>
    rw [← deltaOfInt_total_iff, ← deltaOfInt_total_iff]
    simp only [encodeAlu_ok_iff]
    constructor
    · rintro ⟨w, dd, rd, hd, hr, -⟩
      exact ⟨⟨dd, hd⟩, ⟨rd, hr⟩⟩
    · rintro ⟨⟨dd, hd⟩, ⟨rd, hr⟩⟩
      exact ⟨_, dd, rd, hd, hr, rfl⟩
  case word =>
    obtain ⟨dd, rd, hd, hr, rfl⟩ := (encodeAlu_ok_iff m op o d r ret w).mp hok
    exact ⟨_, decode_encodeAluWord op _, rfl, rfl, rfl, (deltaOfInt_ok_iff d dd).mp hd, (deltaOfInt_ok_iff r rd).mp hr⟩

end Sys2Proof.Proofs
end

section
/-! PROOF. The assembler side (30_encoding.md R72 to R76): runs of tokens that only OR into the accumulator, the instructions they
spell with a terminal, and the end of a program. -/

namespace Sys2Proof.Proofs

open Sys2Proof.Machine Sys2Proof.Claim

/-- Patterns may be put together in any order (R72): with `BitVec.or_assoc` and `BitVec.or_comm` this sorts a union. -/
theorem word_or_left_comm (a b c : MemCell) : a ||| (b ||| c) = b ||| (a ||| c) := by
  rw [← BitVec.or_assoc, BitVec.or_comm a b, BitVec.or_assoc]

/-! ## Runs of inert tokens -/

/-- The tokens OR the pattern `p` into the accumulator and emit nothing (R73). -/
def InertRun (dict : Dictionary) (toks : List String) (p : MemCell) : Prop :=
  ∀ acc rest, assemble dict acc (toks ++ rest) = assemble dict (acc ||| p) rest

section

variable {dict : Dictionary}

theorem inertRun_nil : InertRun dict [] 0 := fun acc rest => by
  rw [List.nil_append, BitVec.ofNat_eq_ofNat, BitVec.or_zero]

theorem inertRun_append {toks toks' : List String} {p q : MemCell} (h : InertRun dict toks p) (h' : InertRun dict toks' q) :
    InertRun dict (toks ++ toks') (p ||| q) := fun acc rest => by
  rw [List.append_assoc, h, h', BitVec.or_assoc]

theorem inertRun_of_resolve {tok : String} {p : MemCell} (h : resolve dict tok = some (.inert p)) : InertRun dict [tok] p :=
  fun acc rest => assemble_inert acc rest h

/-- A mnemonic of the field table is inert whatever the Dictionary holds. -/
theorem inertRun_mnemonic {tok : String} {p : MemCell} (h : fieldTable.lookup tok = some (.inert p)) :
    InertRun dict [tok] p :=
  inertRun_of_resolve (resolve_mnemonic dict h)

/-- A terminal after inert tokens emits one word, the union of the patterns. -/
theorem assemble_terminated {toks : List String} {term : String} {p q w : MemCell} (hrun : InertRun dict toks p)
    (hterm : fieldTable.lookup term = some (.terminal q)) (hword : p ||| q = w) :
    assemble dict 0 (toks ++ [term]) = .ok [w] := by
  rw [hrun, assemble_terminal _ _ (resolve_mnemonic dict hterm), BitVec.ofNat_eq_ofNat, BitVec.zero_or, hword]
  rfl

/-! ## The fields of an ALU instruction (R72) -/

theorem inertRun_input (m : InMux) : InertRun dict [inputName m] (inputPattern m) :=
  inertRun_mnemonic (by cases m <;> rfl)

theorem inertRun_operation (op : AluOp) : InertRun dict [opName op] (opPattern op) :=
  inertRun_mnemonic (by cases op <;> rfl)

theorem inertRun_output (m : OutMux) : InertRun dict [outputName m] (outputPattern m) :=
  inertRun_mnemonic (by cases m <;> rfl)

theorem inertRun_dataDelta (d : Delta) : InertRun dict (dataDeltaNames d) (dataPattern d) := by
  cases d with
  | zero => exact inertRun_nil
  | plus1 => exact inertRun_mnemonic rfl
  | minus2 => exact inertRun_mnemonic rfl
  | minus1 => exact inertRun_mnemonic rfl

theorem inertRun_returnDelta (d : Delta) : InertRun dict (returnDeltaNames d) (returnPattern d) := by
  cases d with
  | zero => exact inertRun_nil
  | plus1 => exact inertRun_mnemonic rfl
  | minus2 => exact inertRun_mnemonic rfl
  | minus1 => exact inertRun_mnemonic rfl

theorem inertRun_ret (ret : Bool) :
    InertRun dict (if ret then ["RET"] else []) (placeAt (BitVec.ofBool ret) Layout.spec.ret) := by
  cases ret with
  | false => exact inertRun_nil
  | true => exact inertRun_mnemonic rfl

end

/-- Settles O50: the tokens before `alu` are inert, and the patterns with that of `alu` make up the format-A word. -/
theorem mnemonicsSpellEveryAluInstruction : Obligations.MnemonicsSpellEveryAluInstruction := by
  intro dict op f
  have hmuxes := inertRun_append (inertRun_append (inertRun_input (dict := dict) f.inp) (inertRun_operation op))
    (inertRun_output f.out)
  have hfields := inertRun_append (inertRun_append (inertRun_append hmuxes (inertRun_dataDelta f.dd))
    (inertRun_returnDelta f.rd)) (inertRun_ret f.ret)
  refine assemble_terminated hfields (term := "alu") rfl ?_
  rw [encode_ofAlu, encodeAluWord_eq_patterns]
  simp only [BitVec.or_assoc, BitVec.or_comm, word_or_left_comm]

/-! ## Bare integers (R75) -/

theorem bareInteger_le {tok : String} {n : Nat} (h : bareInteger tok = some n) : n ≤ 4095 := by
  unfold bareInteger at h
  split_ifs at h
  split at h
  · split_ifs at h with hle
    cases h
    exact hle
  · cases h

/-- No mnemonic of the field table is a string of digits. -/
theorem fieldTable_no_integer : ∀ row ∈ fieldTable, bareInteger row.1 = none := by decide

theorem lookup_fieldTable_of_integer {tok : String} {n : Nat} (h : bareInteger tok = some n) :
    fieldTable.lookup tok = none := by
  refine List.lookup_eq_none_iff.mpr fun row hrow => bne_iff_ne.mpr ?_
  rintro rfl
  cases h.symm.trans (fieldTable_no_integer row hrow)

theorem inertRun_integer {dict : Dictionary} {tok : String} {n : Nat} (h : bareInteger tok = some n)
    (hword : dict.lookup tok = none) : InertRun dict [tok] (BitVec.ofNat 16 n) :=
  inertRun_of_resolve (by rw [resolve_integer (lookup_fieldTable_of_integer h) hword, h]; rfl)

theorem inertRun_shift {dict : Dictionary} :
    ∀ p ∈ shiftTokens, InertRun dict p.1 (placeAt p.2 Layout.spec.shift) := by
  simp only [shiftTokens, List.forall_mem_cons]
  exact ⟨inertRun_nil, inertRun_mnemonic rfl, inertRun_mnemonic rfl, inertRun_mnemonic rfl, List.forall_mem_nil _⟩

/-- The patterns of a literal's tokens make up its format-L word (R61, R74). -/
theorem encodeLit_eq_patterns (add : Bool) {n : Nat} (hn : n ≤ 4095) (k : BitVec 2) :
    encodeLit Layout.spec add (BitVec.ofNat 12 n) k = BitVec.ofNat 16 n ||| placeAt k Layout.spec.shift |||
      placeAt (BitVec.ofBool add) Layout.spec.add ||| placeAt 1#1 Layout.spec.lit := by
  rw [← placeAt_ofNat_zero (n := 12) (by decide) (by omega : n < 2 ^ 12)]
  have hmag : Layout.spec.mag = 0 := rfl
  simp only [encodeLit, hmag, BitVec.or_assoc, BitVec.or_comm, word_or_left_comm]

/-- The patterns of a transfer's tokens make up its format-J word (R62, R74). -/
theorem encodeTransfer_eq_patterns (c : InstrClass) {n : Nat} (hn : n ≤ 4095) :
    encodeTransfer Layout.spec c (BitVec.ofNat 13 n) = BitVec.ofNat 16 n ||| classPattern c := by
  rw [← placeAt_ofNat_zero (n := 13) (by decide) (by omega : n < 2 ^ 13)]
  exact BitVec.or_comm _ _

/-- Settles O51: the integer is an inert token, and so are the shifts and `+imm`; each terminal then emits the word. -/
theorem bareIntegersSpellLiteralsAndTargets : Obligations.BareIntegersSpellLiteralsAndTargets := by
  intro dict tok n hint hword
  have hn : n ≤ 4095 := bareInteger_le hint
  have htok : InertRun dict [tok] (BitVec.ofNat 16 n) := inertRun_integer hint hword
  refine ⟨hn, fun p hp => ⟨?push, ?add⟩, ?jmp, ?zeroBranch, ?call⟩
  case push =>
    have hrun := inertRun_append htok (inertRun_shift p hp)
    have hencode : encode (.litPush (BitVec.ofNat 12 n) p.2) = encodeLit Layout.spec false (BitVec.ofNat 12 n) p.2 := rfl
    have hclear : placeAt (BitVec.ofBool false) Layout.spec.add = 0#16 := rfl
    exact assemble_terminated hrun rfl (by rw [hencode, encodeLit_eq_patterns false hn, hclear, BitVec.or_zero])
  case add =>
    have himm : InertRun dict ["+imm"] (placeAt 1#1 Layout.spec.add) := inertRun_mnemonic rfl
    have hrun := inertRun_append (inertRun_append htok (inertRun_shift p hp)) himm
    have htoks : tok :: p.1 ++ ["+imm", "imm"] = [tok] ++ p.1 ++ ["+imm"] ++ ["imm"] := by simp
    rw [htoks]
    exact assemble_terminated hrun rfl (encodeLit_eq_patterns true hn p.2).symm
  case jmp => exact assemble_terminated htok rfl (encodeTransfer_eq_patterns .jump hn).symm
  case zeroBranch => exact assemble_terminated htok rfl (encodeTransfer_eq_patterns .zeroBranch hn).symm
  case call => exact assemble_terminated htok rfl (encodeTransfer_eq_patterns .call hn).symm

/-! ## A program (R76) -/

/-- What a list of pseudo-instructions expands to: the sequence of each, one after another. -/
theorem expandAll_ok {dict : Dictionary} {ps : List Pseudo} {out : List MemCell} (h : expandAll dict ps = .ok out) :
    ∃ parts : List (List MemCell), ps.map (expand dict) = parts.map .ok ∧ out = parts.flatten := by
  induction ps generalizing out with
  | nil =>
    cases h
    exact ⟨[], rfl, rfl⟩
  | cons p ps ih =>
    rw [expandAll] at h
    rcases hp : expand dict p with e | xs
    · rw [hp] at h
      cases h
    · rcases hps : expandAll dict ps with e | rest
      · rw [hp, hps] at h
        cases h
      · rw [hp, hps] at h
        cases h
        obtain ⟨parts, hparts, rfl⟩ := ih hps
        exact ⟨xs :: parts, by rw [List.map_cons, hp, hparts, List.map_cons], rfl⟩

theorem encode_wordExit : encode wordExit = 0x740C := by decide

/-- Settles O52: the parts are those of `expandAll`, and `finishProgram` tests for the word of `exit`. -/
theorem compiledProgramEndsInHaltOrExit : Obligations.CompiledProgramEndsInHaltOrExit := by
  intro dict ps words hcompile
  unfold compileProgram at hcompile
  rcases hall : expandAll dict ps with e | out
  · rw [hall] at hcompile
    cases hcompile
  · rw [hall] at hcompile
    cases hcompile
    obtain ⟨parts, hparts, rfl⟩ := expandAll_ok hall
    rw [finishProgram, encode_wordExit]
    exact ⟨parts, hparts, fun hexit => if_pos hexit, fun hother => if_neg hother⟩

end Sys2Proof.Proofs
end

section
/-! PROOF. The two literal instructions (40_literal.md R90 to R92): the chunk a word places, and what each does to the state. -/

namespace Sys2Proof.Proofs

open Sys2Proof.Machine Sys2Proof.Claim

/-- The chunk as a number: the 12-bit field at one of four positions (R92). -/
theorem litValue_eq_ofNat (mag : BitVec 12) (shift : BitVec 2) :
    litValue mag shift = BitVec.ofNat 64 (mag.toNat * 2 ^ (12 * shift.toNat)) := by
  apply BitVec.eq_of_toNat_eq
  rw [litValue, BitVec.toNat_shiftLeft, BitVec.toNat_setWidth_of_le (by decide), Nat.shiftLeft_eq, BitVec.toNat_ofNat]

theorem exec_litPush_of_full {s : State} (mag : BitVec 12) (shift : BitVec 2) (hfull : s.cfg.dcap ≤ s.sp) :
    exec (.litPush mag shift) s = .next (s.raise (.stackError .data .overflow)) := if_pos hfull

theorem exec_litPush_of_room {s : State} (mag : BitVec 12) (shift : BitVec 2) (hroom : s.sp < s.cfg.dcap) :
    exec (.litPush mag shift) s = .next ((s.dPush (litValue mag shift)).commit (s.eip + 1)) := if_neg hroom.not_ge

theorem exec_litAdd (mag : BitVec 12) (shift : BitVec 2) (s : State) :
    exec (.litAdd mag shift) s = .next (({ s with t := s.t + litValue mag shift } : State).commit (s.eip + 1)) := rfl

/-- Settles O25: a full stack faults before the push, and the pushed chunk is `litValue_eq_ofNat`. -/
theorem litPushPushesTheChunk : Obligations.LitPushPushesTheChunk := by
  intro mag shift s
  refine ⟨exec_litPush_of_full mag shift, fun hroom => ?_⟩
  rw [exec_litPush_of_room mag shift hroom, litValue_eq_ofNat]
  rfl

/-- Settles O26: the sum of two cells is the sum of the numbers modulo 2^64. -/
theorem litAddAddsTheChunk : Obligations.LitAddAddsTheChunk := by
  intro mag shift s
  rw [exec_litAdd, litValue_eq_ofNat, BitVec.ofNat_add, BitVec.ofNat_toNat, BitVec.setWidth_eq]
  rfl

end Sys2Proof.Proofs
end

section
/-! PROOF. The `LITERAL n` sequence (40_literal.md R94, R95). The parts of `enc(n)` push one value over the stack of
the start, then shift it, add to it and complement it, so what a sequence does is said by the value it pushes (`Pushes`). -/

namespace Sys2Proof.Proofs

open Sys2Proof.Machine Sys2Proof.Claim

/-! ## Instructions one after another -/

theorem execAll_cons_next {i : Instr} {s t : State} (is : List Instr) (hnext : exec i s = .next t)
    (hrun : t.status = .running) : execAll (i :: is) s = execAll is t := by
  rw [execAll, hnext]
  exact if_pos hrun

/-- A sequence that ends in a running state went through a running state after its first instruction. -/
theorem execAll_cons_running {i : Instr} {is : List Instr} {s t : State} (hall : execAll (i :: is) s = .next t)
    (hrun : t.status = .running) : ∃ u, exec i s = .next u ∧ u.status = .running ∧ execAll is u = .next t := by
  rw [execAll] at hall
  rcases hexec : exec i s with u | r | r <;> rw [hexec] at hall
  case next =>
    dsimp only at hall
    split_ifs at hall with hu
    · exact ⟨u, rfl, hu, hall⟩
    · cases hall
      exact absurd hrun hu
  all_goals cases hall

theorem execAll_append_next {is : List Instr} (js : List Instr) {s t : State} (hfirst : execAll is s = .next t)
    (hrun : t.status = .running) : execAll (is ++ js) s = execAll js t := by
  induction is generalizing s with
  | nil =>
    cases hfirst
    rfl
  | cons i is ih =>
    obtain ⟨u, hnext, hu, hrest⟩ := execAll_cons_running hfirst hrun
    rw [List.cons_append, execAll_cons_next _ hnext hu, ih hrest]

/-! ## The words `invert` and `lshift` -/

theorem exec_ofAlu_value {op : AluOp} {f : AluFields} {s s1 : State} {out : StackCell} (hpass : aluFault op f s = none)
    (hvalue : operate op (sample f s) s = .value out s1) :
    exec (Instr.ofAlu op f) s = .next (aluFinish f out s s1) := by
  simp only [exec_ofAlu, aluRun, hpass, hvalue]

/-- `invert` complements the top of the stack, on any stack (R148, R211). -/
theorem exec_wordInvert (s : State) :
    exec wordInvert s = .next (({ s with t := ~~~s.t } : State).commit (s.eip + 1)) := by
  have hpass : aluFault .not { ret := false, inp := .t, out := .t, rd := .zero, dd := .zero } s = none :=
    aluFault_eq_none_of_reach (by simp [DeltasFit]) (by simp [MuxesReach]) (by simp [opReadsN]) nofun nofun
  exact exec_ofAlu_value hpass rfl

/-- `lshift` shifts the second element left by the top, up to 63 places, and drops the top (R153, R211). -/
theorem exec_wordLshift {s : State} (hsome : 1 ≤ s.sp) (hcount : s.t.toNat ≤ 63) :
    exec wordLshift s =
      .next (({ s with t := s.nos <<< s.t.toNat, sp := s.sp - 1 } : State).commit (s.eip + 1)) := by
  have hpass : aluFault .shl { ret := false, inp := .n, out := .t, rd := .zero, dd := .minus1 } s = none :=
    aluFault_eq_none_of_reach (by simp [DeltasFit, hsome]) (by simp [MuxesReach, hsome]) (by simp [opReadsN]) nofun nofun
  have hshift : shiftCell s.cfg .left s.nos s.t = s.nos <<< s.t.toNat := if_pos hcount
  rw [← hshift]
  exact exec_ofAlu_value hpass rfl

/-! ## The state with a literal pushed -/

/-- `s` after `k` instructions that have pushed `v` and left the data-stack array `ds`. -/
def withLiteral (s : State) (ds : List StackCell) (v : StackCell) (k : Nat) : State :=
  { s with ds := ds, sp := s.sp + 1, t := v, eip := s.eip + BitVec.ofNat 64 k, cycles := s.cycles + BitVec.ofNat 64 k }

theorem withLiteral_running {s : State} (hrun : s.status = .running) (ds : List StackCell) (v : StackCell) (k : Nat) :
    (withLiteral s ds v k).status = .running := hrun

/-- The array `ds` has the cells of a push on `s` up to the new depth; above it, it may hold what a deeper push left. -/
structure KeepsStack (s : State) (ds : List StackCell) : Prop where
  length : ds.length = s.ds.length
  cells : ds.take (s.sp + 1) = (s.ds.set s.sp s.t).take (s.sp + 1)

theorem keepsStack_push (s : State) : KeepsStack s (s.ds.set s.sp s.t) := ⟨List.length_set, rfl⟩

/-- A cell above the new depth is not part of the stack. -/
theorem keepsStack_set_above {s : State} {ds : List StackCell} (v : StackCell) (h : KeepsStack s ds) :
    KeepsStack s (ds.set (s.sp + 1) v) :=
  ⟨List.length_set.trans h.length, (List.take_set_of_le le_rfl).trans h.cells⟩

theorem dstack_withLiteral {s : State} {ds : List StackCell} (h : KeepsStack s ds) (hroom : s.sp < s.ds.length)
    (v : StackCell) (k : Nat) : (withLiteral s ds v k).dstack = s.dstack ++ [v] := by
  rw [dstack_eq, dstack_eq, ← stackList_push s.t v hroom]
  simp only [stackList, withLiteral, h.cells]

section

variable (s : State) (ds : List StackCell) (v : StackCell) (k : Nat)

theorem add_ofNat_succ (x : StackCell) : x + BitVec.ofNat 64 k + 1 = x + BitVec.ofNat 64 (k + 1) := by
  rw [BitVec.ofNat_add, BitVec.add_assoc]
  rfl

theorem exec_litPush_start (mag : BitVec 12) (shift : BitVec 2) (hroom : s.sp < s.cfg.dcap) :
    exec (.litPush mag shift) s = .next (withLiteral s (s.ds.set s.sp s.t) (litValue mag shift) 1) :=
  exec_litPush_of_room mag shift hroom

theorem exec_litAdd_withLiteral (mag : BitVec 12) (shift : BitVec 2) :
    exec (.litAdd mag shift) (withLiteral s ds v k) = .next (withLiteral s ds (v + litValue mag shift) (k + 1)) := by
  rw [exec_litAdd]
  simp only [withLiteral, State.commit, add_ofNat_succ]

theorem exec_wordInvert_withLiteral :
    exec wordInvert (withLiteral s ds v k) = .next (withLiteral s ds (~~~v) (k + 1)) := by
  rw [exec_wordInvert]
  simp only [withLiteral, State.commit, add_ofNat_succ]

/-- The one place where the depth is two above that of `s`: the value is in the next cell and the count 48 on top (R95 (a)). -/
def withLiteralAndCount : State := { withLiteral s (ds.set (s.sp + 1) v) 48 (k + 1) with sp := s.sp + 2 }

theorem exec_count_withLiteral (hroom : s.sp + 1 < s.cfg.dcap) :
    exec (.litPush 48 0) (withLiteral s ds v k) = .next (withLiteralAndCount s ds v k) := by
  rw [exec_litPush_of_room 48 0 hroom]
  simp only [withLiteralAndCount, withLiteral, State.dPush, State.commit, add_ofNat_succ]
  rfl

theorem exec_wordLshift_withLiteral (hcell : s.sp + 1 < ds.length) :
    exec wordLshift (withLiteralAndCount s ds v k) =
      .next (withLiteral s (ds.set (s.sp + 1) v) (v <<< 48) (k + 2)) := by
  have hcount : (withLiteralAndCount s ds v k).t.toNat ≤ 63 := (by decide : (48 : StackCell).toNat ≤ 63)
  have hnos : (withLiteralAndCount s ds v k).nos = v := getD_set_self v hcell
  rw [exec_wordLshift (Nat.le_add_left 1 _) hcount, hnos]
  simp only [withLiteralAndCount, withLiteral, State.commit, add_ofNat_succ]
  rfl

end

/-! ## The chunks (R94 step 5) -/

theorem litValue_chunk {c k : Nat} (hc : c < 4096) (hk : k < 4) :
    litValue (BitVec.ofNat 12 c) (BitVec.ofNat 2 k) = BitVec.ofNat 64 (2 ^ (12 * k) * c) := by
  rw [litValue_eq_ofNat, BitVec.toNat_ofNat, BitVec.toNat_ofNat, Nat.mod_eq_of_lt hc, Nat.mod_eq_of_lt hk, Nat.mul_comm]

/-- The low `k + 1` chunks of a number are its chunk `k` above its low `k` chunks. -/
theorem low_chunks_succ (acc k : Nat) :
    acc % 2 ^ (12 * (k + 1)) = 2 ^ (12 * k) * (acc >>> (12 * k) % 4096) + acc % 2 ^ (12 * k) := by
  rw [Nat.mul_succ, Nat.pow_add, Nat.mod_mul, Nat.shiftRight_eq_div_pow, Nat.add_comm]

theorem chunkLoop_succ_zero {k acc : Nat} (first : Bool) (hc : acc >>> (12 * k) % 4096 = 0) :
    chunkLoop (k + 1) acc first = chunkLoop k acc first := if_pos hc

theorem chunkLoop_succ_push {k acc : Nat} (hc : acc >>> (12 * k) % 4096 ≠ 0) :
    chunkLoop (k + 1) acc true =
      .litPush (BitVec.ofNat 12 (acc >>> (12 * k) % 4096)) (BitVec.ofNat 2 k) :: chunkLoop k acc false := if_neg hc

theorem chunkLoop_succ_add {k acc : Nat} (hc : acc >>> (12 * k) % 4096 ≠ 0) :
    chunkLoop (k + 1) acc false =
      .litAdd (BitVec.ofNat 12 (acc >>> (12 * k) % 4096)) (BitVec.ofNat 2 k) :: chunkLoop k acc false := if_neg hc

/-- Every later chunk is added to the top. -/
theorem execAll_chunkLoop_false {s : State} (hrun : s.status = .running) (ds : List StackCell) (acc : Nat) {k : Nat}
    (hk : k ≤ 4) (v : StackCell) (j : Nat) :
    execAll (chunkLoop k acc false) (withLiteral s ds v j) =
      .next (withLiteral s ds (v + BitVec.ofNat 64 (acc % 2 ^ (12 * k))) (j + (chunkLoop k acc false).length)) := by
  induction k generalizing v j with
  | zero => simp [chunkLoop, execAll, Nat.mod_one]
  | succ k ih =>
    by_cases hc : acc >>> (12 * k) % 4096 = 0
    · rw [chunkLoop_succ_zero false hc, ih (by omega), low_chunks_succ, hc, Nat.mul_zero, Nat.zero_add]
    · rw [chunkLoop_succ_add hc, execAll_cons_next _ (exec_litAdd_withLiteral s ds v j _ _) hrun, ih (by omega),
        litValue_chunk (Nat.mod_lt _ (by decide)) hk, low_chunks_succ, BitVec.ofNat_add, BitVec.add_assoc, List.length_cons,
        Nat.add_right_comm j, Nat.add_assoc j]

/-- The first chunk is pushed; without any, zero is. -/
theorem execAll_chunkLoop_true {s : State} (hrun : s.status = .running) (hroom : s.sp < s.cfg.dcap) (acc : Nat) {k : Nat}
    (hk : k ≤ 4) :
    execAll (chunkLoop k acc true) s = .next (withLiteral s (s.ds.set s.sp s.t) (BitVec.ofNat 64 (acc % 2 ^ (12 * k)))
      (chunkLoop k acc true).length) := by
  induction k with
  | zero =>
    have hone : acc % 2 ^ (12 * 0) = 0 := Nat.mod_one acc
    rw [hone]
    exact execAll_cons_next [] (exec_litPush_start s 0 0 hroom) hrun
  | succ k ih =>
    by_cases hc : acc >>> (12 * k) % 4096 = 0
    · rw [chunkLoop_succ_zero true hc, ih (by omega), low_chunks_succ, hc, Nat.mul_zero, Nat.zero_add]
    · rw [chunkLoop_succ_push hc, execAll_cons_next _ (exec_litPush_start s _ _ hroom) hrun,
        execAll_chunkLoop_false hrun _ _ (by omega), litValue_chunk (Nat.mod_lt _ (by decide)) hk, low_chunks_succ,
        BitVec.ofNat_add, List.length_cons, Nat.add_comm 1]

/-- At most one instruction for each chunk, and one for the value 0. -/
theorem chunkLoop_length_le (acc : Nat) {k m : Nat} {first : Bool} (hk : k ≤ m) (hone : first = true → 1 ≤ m) :
    (chunkLoop k acc first).length ≤ m := by
  induction k generalizing m first with
  | zero =>
    cases first with
    | false => exact Nat.zero_le m
    | true => exact hone rfl
  | succ k ih =>
    by_cases hc : acc >>> (12 * k) % 4096 = 0
    · rw [chunkLoop_succ_zero first hc]
      exact ih (Nat.le_of_succ_le hk) hone
    · have hrest : (chunkLoop k acc false).length ≤ k := ih le_rfl nofun
      cases first with
      | false =>
        rw [chunkLoop_succ_add hc]
        exact (Nat.succ_le_succ hrest).trans hk
      | true =>
        rw [chunkLoop_succ_push hc]
        exact (Nat.succ_le_succ hrest).trans hk

/-! ## Values below 2^48 -/

theorem lt_two_pow_bitlen (v : Nat) : v < 2 ^ bitlen v := by
  unfold bitlen
  split
  case isTrue hzero => simp [hzero]
  case isFalse => exact Nat.lt_log2_self

theorem bitlen_le_of_lt {v b : Nat} (h : v < 2 ^ b) : bitlen v ≤ b := by
  unfold bitlen
  split
  case isTrue => exact Nat.zero_le b
  case isFalse hne => exact (Nat.log2_lt hne).mpr h

/-- The chunks of a number hold all of it. -/
theorem mod_chunks_eq_self (acc : Nat) : acc % 2 ^ (12 * ((bitlen acc + 11) / 12)) = acc :=
  Nat.mod_eq_of_lt ((lt_two_pow_bitlen acc).trans_le (Nat.pow_le_pow_right (by decide) (by omega)))

theorem chunks_le_of_lt {acc m : Nat} (h : acc < 2 ^ (12 * m)) : (bitlen acc + 11) / 12 ≤ m := by
  have hlen := bitlen_le_of_lt h
  omega

theorem encChunks_length_le {acc m : Nat} (first : Bool) (h : acc < 2 ^ (12 * m)) (hone : 1 ≤ m) :
    (encChunks acc first).length ≤ m := chunkLoop_length_le acc (chunks_le_of_lt h) fun _ => hone

/-! ## Sequences that push a value -/

/-- Executed from `s`, the sequence pushes `v`: its length is what `EIP` and `CYCLES` advance by. -/
def Pushes (is : List Instr) (v : StackCell) (s : State) : Prop :=
  ∃ ds, KeepsStack s ds ∧ execAll is s = .next (withLiteral s ds v is.length)

section

variable {s : State} {is : List Instr} {v : StackCell}

theorem length_pos_of_pushes (h : Pushes is v s) : 1 ≤ is.length := by
  obtain ⟨ds, -, hexec⟩ := h
  rcases is with _ | ⟨i, is⟩
  · have hsp : s.sp = s.sp + 1 := congrArg State.sp (Host.Outcome.next.inj hexec)
    omega
  · exact Nat.le_add_left 1 _

/-- What follows a sequence that has pushed `v` runs from the state with `v` pushed. -/
theorem pushes_append {js : List Instr} {w : StackCell} (hrun : s.status = .running) (h : Pushes is v s)
    (hnext : ∀ ds, KeepsStack s ds → ∃ ds', KeepsStack s ds' ∧
      execAll js (withLiteral s ds v is.length) = .next (withLiteral s ds' w (is.length + js.length))) :
    Pushes (is ++ js) w s := by
  obtain ⟨ds, hkeeps, hexec⟩ := h
  obtain ⟨ds', hkeeps', hexec'⟩ := hnext ds hkeeps
  exact ⟨ds', hkeeps', by rw [execAll_append_next js hexec hrun, hexec', List.length_append]⟩

theorem pushes_append_invert (hrun : s.status = .running) (h : Pushes is v s) : Pushes (is ++ [wordInvert]) (~~~v) s :=
  pushes_append hrun h fun ds hkeeps =>
    ⟨ds, hkeeps, execAll_cons_next [] (exec_wordInvert_withLiteral s ds v is.length) hrun⟩

/-- The low chunks are added to what stands on the stack. -/
theorem pushes_append_chunks {acc : Nat} (hacc : acc < 2 ^ 48) (hrun : s.status = .running) (h : Pushes is v s) :
    Pushes (is ++ encChunks acc false) (v + BitVec.ofNat 64 acc) s :=
  pushes_append hrun h fun ds hkeeps => by
    have hexec := execAll_chunkLoop_false hrun ds acc (chunks_le_of_lt (m := 4) hacc) v is.length
    rw [mod_chunks_eq_self] at hexec
    exact ⟨ds, hkeeps, hexec⟩

/-- The split case uses a second free cell (R95 (a)). -/
theorem pushes_append_lshift (hrun : s.status = .running) (hroom : s.sp + 1 < s.cfg.dcap) (hcell : s.sp + 1 < s.ds.length)
    (h : Pushes is v s) : Pushes (is ++ [.litPush 48 0, wordLshift]) (v <<< 48) s :=
  pushes_append hrun h fun ds hkeeps => by
    have hlshift := exec_wordLshift_withLiteral s ds v is.length (hkeeps.length ▸ hcell)
    refine ⟨ds.set (s.sp + 1) v, keepsStack_set_above v hkeeps, ?_⟩
    rw [execAll_cons_next _ (exec_count_withLiteral s ds v is.length hroom) hrun]
    exact execAll_cons_next [] hlshift (withLiteral_running hrun _ _ _)

theorem pushes_encChunks {acc : Nat} (hacc : acc < 2 ^ 48) (hrun : s.status = .running) (hroom : s.sp < s.cfg.dcap) :
    Pushes (encChunks acc true) (BitVec.ofNat 64 acc) s := by
  have hexec := execAll_chunkLoop_true hrun hroom acc (chunks_le_of_lt (m := 4) hacc)
  rw [mod_chunks_eq_self] at hexec
  exact ⟨_, keepsStack_push s, hexec⟩

end

/-! ## The sequence of R94 -/

/-- Step 3 of R94 splits a number at bit 48. -/
theorem ofNat_split (acc : Nat) :
    BitVec.ofNat 64 (acc >>> 48) <<< 48 + BitVec.ofNat 64 (acc % 2 ^ 48) = BitVec.ofNat 64 acc := by
  apply BitVec.eq_of_toNat_eq
  rw [BitVec.toNat_add, BitVec.toNat_shiftLeft, Nat.shiftLeft_eq, Nat.shiftRight_eq_div_pow]
  simp only [BitVec.toNat_ofNat]
  omega

theorem encMag_length_le {acc : Nat} (hacc : acc < 2 ^ 63) : (encMag acc).length ≤ 8 := by
  unfold encMag
  split
  case isTrue =>
    have hhigh := encChunks_length_le (acc := acc >>> 48) (m := 2) true (by rw [Nat.shiftRight_eq_div_pow]; omega) (by decide)
    have hlow := encChunks_length_le (acc := acc % 2 ^ 48) (m := 4) false (by omega) (by decide)
    simp only [List.length_append, List.length_cons, List.length_nil]
    omega
  case isFalse hsmall =>
    have hlen := encChunks_length_le (acc := acc) (m := 4) true (by omega) (by decide)
    omega

theorem pushes_encMag {s : State} {acc : Nat} (hacc : acc < 2 ^ 63) (hinv : Inv s) (hrun : s.status = .running)
    (hroom : s.sp + 2 ≤ s.cfg.dcap) : Pushes (encMag acc) (BitVec.ofNat 64 acc) s := by
  unfold encMag
  split
  case isTrue =>
    have hhigh : acc >>> 48 < 2 ^ 48 := by
      rw [Nat.shiftRight_eq_div_pow]
      omega
    rw [← ofNat_split acc]
    exact pushes_append_chunks (by omega) hrun
      (pushes_append_lshift hrun hroom (hinv.dsLength ▸ hroom) (pushes_encChunks hhigh hrun (by omega)))
  case isFalse hsmall => exact pushes_encChunks (by omega) hrun (by omega)

/-- The three sequences of R94: the magnitude that is encoded fits 63 bits. -/
theorem encLiteral_cases (n : StackCell) :
    (n = 0 ∧ encLiteral n = [.litPush 0 0]) ∨
    ((~~~n).toNat < 2 ^ 63 ∧ encLiteral n = encMag (~~~n).toNat ++ [wordInvert]) ∨
    (n.toNat < 2 ^ 63 ∧ encLiteral n = encMag n.toNat) := by
  unfold encLiteral
  split_ifs with hzero hneg
  · exact .inl ⟨hzero, rfl⟩
  · rw [BitVec.msb_eq_decide, decide_eq_true_eq] at hneg
    exact .inr (.inl ⟨by rw [BitVec.toNat_not]; omega, rfl⟩)
  · rw [BitVec.msb_eq_decide, decide_eq_true_eq] at hneg
    exact .inr (.inr ⟨by omega, rfl⟩)

theorem encLiteral_length_le (n : StackCell) : (encLiteral n).length ≤ 9 := by
  rcases encLiteral_cases n with ⟨-, hseq⟩ | ⟨hmag, hseq⟩ | ⟨hmag, hseq⟩ <;> rw [hseq]
  · decide
  · rw [List.length_append]
    exact Nat.succ_le_succ (encMag_length_le hmag)
  · exact (encMag_length_le hmag).trans (by decide)

theorem pushes_encLiteral (n : StackCell) {s : State} (hinv : Inv s) (hrun : s.status = .running)
    (hroom : s.sp + 2 ≤ s.cfg.dcap) : Pushes (encLiteral n) n s := by
  rcases encLiteral_cases n with ⟨rfl, hseq⟩ | ⟨hmag, hseq⟩ | ⟨hmag, hseq⟩ <;> rw [hseq]
  · exact pushes_encChunks (acc := 0) (by decide) hrun (Nat.lt_of_succ_lt hroom)
  · have hnot := pushes_append_invert hrun (pushes_encMag hmag hinv hrun hroom)
    rwa [BitVec.ofNat_toNat, BitVec.setWidth_eq, BitVec.not_not] at hnot
  · have hpushes := pushes_encMag hmag hinv hrun hroom
    rwa [BitVec.ofNat_toNat, BitVec.setWidth_eq] at hpushes

/-- Settles O48: the sequence pushes `n` (`pushes_encLiteral`), and `Pushes` says every element of the state but the cells above the
new depth. -/
theorem literalReconstructsItsValue : Obligations.LiteralReconstructsItsValue := by
  intro n s hinv hrun hroom
  have hpushes := pushes_encLiteral n hinv hrun hroom
  refine ⟨⟨length_pos_of_pushes hpushes, encLiteral_length_le n⟩, ?_⟩
  obtain ⟨ds, hkeeps, hexec⟩ := hpushes
  have hin : s.sp < s.ds.length := by
    rw [hinv.dsLength]
    omega
  exact ⟨_, hexec, rfl, rfl, dstack_withLiteral hkeeps hin n _, rfl, rfl, rfl, rfl, rfl, rfl, rfl, rfl, hrun⟩

end Sys2Proof.Proofs
end

section
/-! PROOF. The halt sentinel and the three control transfers (41_control.md R110 to R113): where a transfer's target lies, and what
each instruction does to the state. -/

namespace Sys2Proof.Proofs

open Sys2Proof.Machine Sys2Proof.Claim

/-- A target is zero-extended, so as an address it is the same number (R71, R115). -/
theorem toNat_targetAddr (target : BitVec 13) : (targetAddr target).toNat = target.toNat :=
  BitVec.toNat_setWidth_of_le (by decide)

theorem exec_halt (s : State) : exec .halt s = .next { s with status := .halted } := rfl

theorem exec_jmp (target : BitVec 13) (s : State) : exec (.jmp target) s = .next (s.commit (targetAddr target)) := rfl

theorem exec_zeroBranch_of_empty {s : State} (target : BitVec 13) (hempty : s.sp = 0) :
    exec (.zeroBranch target) s = .next (s.raise (.stackError .data .underflow)) := if_pos (Nat.lt_one_iff.mpr hempty)

theorem exec_zeroBranch_of_some {s : State} (target : BitVec 13) (hsome : 1 ≤ s.sp) :
    exec (.zeroBranch target) s = .next (s.dPop.commit (if s.t = 0 then targetAddr target else s.eip + 1)) :=
  if_neg hsome.not_gt

theorem exec_call_of_full {s : State} (target : BitVec 13) (hfull : s.cfg.rcap ≤ s.rsp) :
    exec (.call target) s = .next (s.raise (.stackError .ret .overflow)) := if_pos hfull

theorem exec_call_of_room {s : State} (target : BitVec 13) (hroom : s.rsp < s.cfg.rcap) :
    exec (.call target) s = .next ((s.rPush (s.eip + 1)).commit (targetAddr target)) := if_neg hroom.not_ge

/-- A jump to a target outside memory commits, and its successor faults at the fetch (R44, R111). -/
theorem step_after_jump_beyond_memory {s : State} {target : BitVec 13} (hrun : s.status = .running)
    (hbeyond : s.cfg.memCells ≤ target.toNat) :
    step (s.commit (targetAddr target)) =
      .next ((s.commit (targetAddr target)).raise (.capacityError (targetAddr target))) :=
  step_beyond_memory hrun (hbeyond.trans_eq (toNat_targetAddr target).symm)

/-- Settles O21: the zero cell decodes to HALT, so the step of a running core that fetches it is `exec_halt`. -/
theorem haltChangesStatusAlone : Obligations.HaltChangesStatusAlone := by
  refine ⟨exec_halt, fun s hrun heip hzero => ?_⟩
  rw [step_in_memory hrun heip, hzero, decode_zero, exec_halt]

/-- Settles O22: the target is taken unchecked, and the fetch at it is the one of `step_after_jump_beyond_memory`. -/
theorem jumpSetsEipAlone : Obligations.JumpSetsEipAlone :=
  fun target s => ⟨exec_jmp target s, step_after_jump_beyond_memory⟩

/-- Settles O23: the pop is outside the test of the old `T`, which selects the next `EIP` alone. -/
theorem zeroBranchPopsAndTests : Obligations.ZeroBranchPopsAndTests :=
  fun target _ => ⟨exec_zeroBranch_of_empty target, exec_zeroBranch_of_some target⟩

/-- Settles O24: a full return stack faults before the push, which otherwise stores the old `R` below the link. -/
theorem callPushesTheLink : Obligations.CallPushesTheLink :=
  fun target _ => ⟨exec_call_of_full target, exec_call_of_room target⟩

end Sys2Proof.Proofs
end

section
/-! PROOF. The ALU family (42_alu.md): the check table of R132 as the statements spell it out, what an instruction can do in its
terms, and what one that commits leaves (R131, phases 4 to 7). -/

namespace Sys2Proof.Proofs

open Sys2Proof.Machine Sys2Proof.Claim

/-! ## The check table (R132) -/

/-- Row 9 of R132: a byte is read of a stream that is empty and closed. -/
abbrev endOfInput (op : AluOp) (f : AluFields) (s : State) : Prop :=
  op = .ioRead ∧ inOf f s = 0xE0 ∧ s.inq = [] ∧ s.inClosed = true

theorem faultIf_of_not {p : Prop} [Decidable p] (k : CoreFault) (h : ¬p) : faultIf (decide p) k = none :=
  (faultIf_eq_none _ k).mpr (decide_eq_false h)

theorem faultIf_of {p : Prop} [Decidable p] (k : CoreFault) (h : p) : faultIf (decide p) k = some k :=
  (faultIf_eq_some _ k k).mpr ⟨decide_eq_true h, rfl⟩

theorem findSome_id_cons (row : Option CoreFault) (rows : List (Option CoreFault)) :
    (row :: rows).findSome? id = row.or (rows.findSome? id) := by
  cases row <;> rfl

/-- The statements' "first that fails" looks at one row, then at the others. -/
theorem find_row_cons (c : Bool) (k : CoreFault) (rows : List (Bool × CoreFault)) :
    (((c, k) :: rows).find? (fun row => row.1)).map (fun row => row.2) =
      (faultIf c k).or ((rows.find? (fun row => row.1)).map (fun row => row.2)) := by
  cases c <;> rfl

/-- A row of the model that fails on an address outside the memory (R41), as a row of the statements. -/
theorem and_not_validAddr (s : State) (a : StackCell) {c : Bool} {p : Prop} [Decidable p] (hc : c = true ↔ p) :
    (c && !s.validAddr a) = decide (p ∧ s.cfg.memCells ≤ a.toNat) := by
  rw [Bool.eq_iff_iff, Bool.and_eq_true, hc, Bool.not_eq_true', ← Bool.not_eq_true, validAddr_iff, Nat.not_lt,
    decide_eq_true_iff]

theorem ioWritable_eq_false_iff (a : StackCell) : ioWritable a = false ↔ ¬(a = 0xF0 ∨ a = 0xF1) := by
  rw [← Bool.not_eq_true, ioWritable, Bool.or_eq_true, beq_iff_eq, beq_iff_eq]
  rfl

/-- The model's one row for a delta is the overflow row of the statements' table, then the underflow row. -/
theorem deltaFault_eq_or (w : StackId) (d : Delta) (depth cap : Nat) :
    deltaFault w d depth cap =
      (faultIf (decide (d = .plus1 ∧ cap ≤ depth)) (.stackError w .overflow)).or
        (faultIf (decide ((d = .minus1 ∧ depth < 1) ∨ (d = .minus2 ∧ depth < 2))) (.stackError w .underflow)) := by
  cases d <;> simp [deltaFault, faultIf]

/-- The table of the statements is rows 1 to 8 as the model checks them before the operation, then row 9. -/
theorem firstFailing_eq (op : AluOp) (f : AluFields) (s : State) :
    firstFailing op f s = (aluFault op f s).or (faultIf (decide (endOfInput op f s)) .ioError) := by
  have huses : (usesN op f && s.sp == 0) = decide ((f.inp = .n ∨ opReadsN op) ∧ s.sp = 0) := by
    rw [Bool.eq_iff_iff, Bool.and_eq_true, usesN_iff, beq_iff_eq, decide_eq_true_iff]
  have hin := and_not_validAddr s s.t (beq_iff_eq (a := f.inp) (b := .memT))
  have hload := and_not_validAddr s (inOf f s) (beq_iff_eq (a := op) (b := .load))
  have hread : (op == .ioRead && inOf f s != ioByteIn && s.cfg.unsupportedIoFatal) =
      decide (op = .ioRead ∧ inOf f s ≠ 0xE0 ∧ s.cfg.unsupportedIoFatal = true) := by
    rw [Bool.eq_iff_iff]; simp [ioByteIn, and_assoc]
  have hstore := and_not_validAddr s s.t (beq_iff_eq (a := f.out) (b := .memT))
  have hwrite : (f.out == .ioT && !ioWritable s.t && s.cfg.unsupportedIoFatal) =
      decide (f.out = .ioT ∧ ¬(s.t = 0xF0 ∨ s.t = 0xF1) ∧ s.cfg.unsupportedIoFatal = true) := by
    rw [Bool.eq_iff_iff]; simp [ioWritable_eq_false_iff, and_assoc]
  simp only [firstFailing, checkTable, find_row_cons, aluFault, aluChecks, findSome_id_cons, inOperand_eq_inOf,
    deltaFault_eq_or, Option.or_assoc, huses, hin, hload, hread, hstore, hwrite,
    List.find?_nil, Option.map_none, List.findSome?_nil, Option.or_none]

theorem sample_eq (f : AluFields) (s : State) : sample f s = ⟨s.t, nOf s, s.r, inOf f s⟩ := by
  rw [← inOperand_eq_inOf]
  rfl

theorem operate_ioRead (f : AluFields) (s : State) : operate .ioRead (sample f s) s = ioRead (inOf f s) s := by
  rw [sample_eq, operate]

/-- What an operation comes to once rows 1 to 8 have passed: the end of the input, a hold, or a value; only the byte read can
come to the first two (R155, R191). -/
theorem operate_of_pass {op : AluOp} {f : AluFields} {s : State} (hpass : aluFault op f s = none) :
    (endOfInput op f s ∧ operate op (sample f s) s = .raises .ioError) ∨
    (needsByte op f s ∧ operate op (sample f s) s = .held) ∨
    (¬endOfInput op f s ∧ ¬needsByte op f s ∧ ∃ out s1, operate op (sample f s) s = .value out s1) := by
  by_cases hop : op = .ioRead
  · subst hop
    obtain ⟨-, -, -, -, -, hfree, -, -⟩ := (aluFault_eq_none _ f s).mp hpass
    rw [inOperand_eq_inOf] at hfree
    rw [operate_ioRead]
    rcases ioRead_cases (inOf f s) s with ⟨b, rest, -, hq, e⟩ | ⟨ha, hq, hc, e⟩ | ⟨ha, hq, hc, e⟩ | ⟨ha, hf, -⟩ |
      ⟨ha, -, e⟩
    · exact .inr (.inr ⟨by simp [hq], by simp [hq], _, _, e⟩)
    · exact .inl ⟨⟨rfl, ha, hq, hc⟩, e⟩
    · exact .inr (.inl ⟨⟨rfl, ha, hq, hc⟩, e⟩)
    · cases (hfree rfl ha).symm.trans hf
    · exact .inr (.inr ⟨fun ⟨_, hin, _⟩ => ha hin, fun ⟨_, hin, _⟩ => ha hin, _, _, e⟩)
  · exact .inr (.inr ⟨fun ⟨hio, _⟩ => hop hio, fun ⟨hio, _⟩ => hop hio, operate_not_ioRead hop _ s⟩)

/-- Everything an ALU instruction can do, in the terms of R132: report the first failing check, be held, or commit. -/
theorem exec_alu_cases (op : AluOp) (f : AluFields) (s : State) :
    (∃ k, firstFailing op f s = some k ∧ exec (Instr.ofAlu op f) s = .next (s.raise k)) ∨
    (firstFailing op f s = none ∧ needsByte op f s ∧ exec (Instr.ofAlu op f) s = .fault .heldForInput) ∨
    (firstFailing op f s = none ∧ ¬needsByte op f s ∧ ∃ out s1, operate op (sample f s) s = .value out s1 ∧
      exec (Instr.ofAlu op f) s = .next (aluFinish f out s s1)) := by
  rw [firstFailing_eq, exec_ofAlu, aluRun]
  rcases hfault : aluFault op f s with _ | k
  case some => exact .inl ⟨k, rfl, rfl⟩
  case none =>
    rcases operate_of_pass hfault with ⟨hend, hop⟩ | ⟨hneeds, hop⟩ | ⟨hend, hneeds, out, s1, hop⟩
    · exact .inl ⟨.ioError, by rw [faultIf_of _ hend, Option.none_or], by rw [hop]⟩
    · have hnotend : ¬endOfInput op f s := by
        obtain ⟨-, -, -, hopen⟩ := hneeds
        simp [hopen]
      exact .inr (.inl ⟨by rw [faultIf_of_not _ hnotend, Option.none_or], hneeds, by rw [hop]⟩)
    · exact .inr (.inr ⟨by rw [faultIf_of_not _ hend, Option.none_or], hneeds, out, s1, hop, by rw [hop]⟩)

theorem exec_of_firstFailing {op : AluOp} {f : AluFields} {s : State} {k : CoreFault} (hk : firstFailing op f s = some k) :
    exec (Instr.ofAlu op f) s = .next (s.raise k) := by
  rcases exec_alu_cases op f s with ⟨j, hj, hexec⟩ | ⟨hnone, -⟩ | ⟨hnone, -⟩
  · cases hk.symm.trans hj
    exact hexec
  · cases hk.symm.trans hnone
  · cases hk.symm.trans hnone

theorem exec_of_needsByte {op : AluOp} {f : AluFields} {s : State} (hnone : firstFailing op f s = none)
    (hneeds : needsByte op f s) : exec (Instr.ofAlu op f) s = .fault .heldForInput := by
  rcases exec_alu_cases op f s with ⟨k, hk, -⟩ | ⟨-, -, hexec⟩ | ⟨-, hnot, -⟩
  · cases hnone.symm.trans hk
  · exact hexec
  · exact absurd hneeds hnot

/-- Settles O34: the three outcomes of `exec_alu_cases`; a commit counts one cycle and leaves `STATUS`. -/
theorem firstFailingCheckIsReported : Obligations.FirstFailingCheckIsReported := by
  intro op f s
  refine ⟨fun k => exec_of_firstFailing, exec_of_needsByte, fun hnone hnot => ?_⟩
  rcases exec_alu_cases op f s with ⟨k, hk, -⟩ | ⟨-, hneeds, -⟩ | ⟨-, -, out, s1, hop, hexec⟩
  · cases hnone.symm.trans hk
  · exact absurd hneeds hnot
  · obtain ⟨-, -, -, -, -, -, hcycles, -, -, -, hstatus, -, -⟩ := operate_value hop
    exact ⟨_, hexec, by rw [aluFinish_status, hstatus], by rw [aluFinish_cycles, hcycles]⟩

/-! ## What an instruction that commits leaves (R131, phases 4 to 7) -/

/-- Rows 2 and 3 of R132 are the bounds of the two deltas. -/
theorem deltasFit_of_pass {op : AluOp} {f : AluFields} {s : State} (hpass : aluFault op f s = none) : DeltasFit f s := by
  obtain ⟨-, hdd, hrd, -⟩ := (aluFault_eq_none op f s).mp hpass
  obtain ⟨hdplus, hdone, hdtwo⟩ := (deltaFault_eq_none _ _ _ _).mp hdd
  obtain ⟨hrplus, hrone, hrtwo⟩ := (deltaFault_eq_none _ _ _ _).mp hrd
  exact ⟨hdplus, hdone, hdtwo, hrplus, hrone, hrtwo⟩

/-- A depth changed by a delta that fits, as an integer (R69, R162, R163). -/
theorem depth_add_delta {d : Delta} {depth : Nat} (hone : d = .minus1 → 1 ≤ depth) (htwo : d = .minus2 → 2 ≤ depth) :
    ((if d = .plus1 then depth + 1 else if d = .minus1 then depth - 1 else if d = .minus2 then depth - 2 else depth : Nat) :
      Int) = depth + deltaValue d := by
  cases d with
  | zero => simp [deltaValue]
  | plus1 => simp [deltaValue]
  | minus1 => have := hone rfl; simp [deltaValue]; omega
  | minus2 => have := htwo rfl; simp [deltaValue]; omega

/-- What a write to the I/O space makes of the output stream (R193 to R196). -/
theorem append_ioOutBytes (q : List Byte) (a v : StackCell) : q ++ ioOutBytes a v =
    if a = 0xF1 then q ++ [v.setWidth 8] else if a = 0xF0 then q ++ multiBytes v else q := by
  rw [ioOutBytes, apply_ite (q ++ ·), apply_ite (q ++ ·), List.append_nil]
  rfl

/-- Phases 4 to 7 leave every state element as the statements say, whatever the operation left in `T` and `DS`. -/
theorem aluFinish_leaves {op : AluOp} {x : Sampled} {f : AluFields} {s s1 : State} {out : StackCell} (hfit : DeltasFit f s)
    (hop : operate op x s = .value out s1) : AluLeaves f s (aluFinish f out s s1) out s1.t s1.ds := by
  obtain ⟨hsp, -, hr, hrs, hrsp, -, hcycles, hmem, hclosed, houtq, hstatus, hcfg, -⟩ := operate_value hop
  obtain ⟨-, hdone, hdtwo, -, hrone, hrtwo⟩ := hfit
  exact {
    sp := by rw [aluFinish_sp, hsp, depth_add_delta hdone hdtwo]
    rsp := by rw [aluFinish_rsp, hrsp, depth_add_delta hrone hrtwo]
    top := by rw [aluFinish_t, hsp]; cases f.dd <;> rfl
    ds := by rw [aluFinish_ds, hsp]
    ret := by rw [aluFinish_r, State.rsAt, State.rsAt, hr, hrs, hrsp]; cases f.rd <;> rfl
    rs := by rw [aluFinish_rs, hr, hrs, hrsp]
    stored := fun hout => by
      rw [aluFinish_mem, if_pos hout, hmem]
      refine ⟨readCell_writeCell_self _ _ _, fun b hlow hhigh => ?_⟩
      rw [aluFinish_mem, if_pos hout, hmem, readByte_writeCell_ne _ _ hlow hhigh]
    memKept := fun hout => by rw [aluFinish_mem, if_neg hout, hmem]
    outq := by rw [aluFinish_outq, houtq, ite_not, append_ioOutBytes]
    eip := rfl
    cycles := by rw [aluFinish_cycles, hcycles]
    status := by rw [aluFinish_status, hstatus]
    cfg := by rw [aluFinish_cfg, hcfg]
    inClosed := by rw [aluFinish_inClosed, hclosed] }

/-- A next state of a running ALU instruction that is still running is a commit. -/
theorem alu_commit {op : AluOp} {f : AluFields} {s t : State} (hnext : exec (Instr.ofAlu op f) s = .next t)
    (hrun : t.status = .running) : ∃ out t1 ds1, AluLeaves f s t out t1 ds1 := by
  rw [exec_ofAlu] at hnext
  rcases aluRun_next hnext with ⟨k, rfl⟩ | ⟨out, s1, hpass, hop, rfl⟩
  · cases hrun
  · exact ⟨out, s1.t, s1.ds, aluFinish_leaves (deltasFit_of_pass hpass) hop⟩

/-- Settles O36: a commit is phase 7, which has `EIP` from the state at the start. -/
theorem returnUsesTheSampledR : Obligations.ReturnUsesTheSampledR := by
  intro op f s t _ hnext hrun
  obtain ⟨_, _, _, hleaves⟩ := alu_commit hnext hrun
  exact hleaves.eip

theorem dataEffect_ofAlu (op : AluOp) (f : AluFields) : dataEffect (Instr.ofAlu op f) = deltaValue f.dd := by
  cases op <;> rfl

theorem returnEffect_ofAlu (op : AluOp) (f : AluFields) : returnEffect (Instr.ofAlu op f) = deltaValue f.rd := by
  cases op <;> rfl

/-- Settles O15: a push, a pop and a call count one, and an ALU instruction's deltas are those of `AluLeaves`. -/
theorem depthsChangeByTheDeclaredDeltas : Obligations.DepthsChangeByTheDeclaredDeltas := by
  intro i s t _ hnext hrun
  rcases exec_next hnext with ⟨k, rfl⟩ | ⟨-, rfl⟩ | ⟨a, rfl, rfl⟩ | ⟨a, rfl, hsome, rfl⟩ | ⟨a, rfl, -, rfl⟩ |
    ⟨m, k, rfl, -, rfl⟩ | ⟨m, k, rfl, rfl⟩ | ⟨op, f, out, s1, rfl, hpass, hop, rfl⟩
  case inl => cases hrun
  case inr.inl => cases hrun
  case inr.inr.inr.inl =>
    simp only [State.commit_sp, State.commit_rsp, State.dPop_sp, State.dPop_rsp, dataEffect, returnEffect]
    omega
  case inr.inr.inr.inr.inr.inr.inr =>
    rw [dataEffect_ofAlu, returnEffect_ofAlu]
    have hleaves := aluFinish_leaves (deltasFit_of_pass hpass) hop
    exact ⟨hleaves.sp, hleaves.rsp⟩
  all_goals simp [dataEffect, returnEffect]

end Sys2Proof.Proofs
end

section
/-! PROOF. The sixteen operations of the ALU family (42_alu.md R140 to R155), where the deltas fit and the muxes reach: the
value and the side effect of each, or the fault of its own row of R132. -/

namespace Sys2Proof.Proofs

open Sys2Proof.Machine Sys2Proof.Claim

/-! ## Commit and fault, for any operation -/

/-- An operation that yields a value commits it, and takes of the input what its own side effect takes. -/
theorem exec_leaves {op : AluOp} {f : AluFields} {s s1 : State} {out : StackCell} (hfit : DeltasFit f s)
    (hpass : aluFault op f s = none) (hop : operate op (sample f s) s = .value out s1) :
    ∃ t, exec (Instr.ofAlu op f) s = .next t ∧ AluLeaves f s t out s1.t s1.ds ∧
      t.inq = s1.inq ∧ t.freeReads = s1.freeReads :=
  ⟨_, exec_ofAlu_value hpass hop, aluFinish_leaves hfit hop, aluFinish_inq .., aluFinish_freeReads ..⟩

/-- Where the deltas fit, the muxes reach and `N` is there if the operation reads it, three rows of R132 are left: those of the
load and of the I/O read. -/
theorem firstFailing_of_reach {op : AluOp} {f : AluFields} {s : State} (hfit : DeltasFit f s) (hreach : MuxesReach f s)
    (hread : opReadsN op → 1 ≤ s.sp) : firstFailing op f s =
      (faultIf (decide (op = .load ∧ s.cfg.memCells ≤ (inOf f s).toNat)) (.capacityError (inOf f s))).or
        ((faultIf (decide (op = .ioRead ∧ inOf f s ≠ 0xE0 ∧ s.cfg.unsupportedIoFatal = true))
          (.unsupportedOperation .read (inOf f s))).or
          (faultIf (decide (endOfInput op f s)) .ioError)) := by
  obtain ⟨hdplus, hdone, hdtwo, hrplus, hrone, hrtwo⟩ := hfit
  obtain ⟨hn, hin, hstore, hio⟩ := hreach
  have hempty : ¬((f.inp = .n ∨ opReadsN op) ∧ s.sp = 0) := fun ⟨huses, hzero⟩ =>
    Nat.one_le_iff_ne_zero.mp (huses.elim hn hread) hzero
  have hdover : ¬(f.dd = .plus1 ∧ s.cfg.dcap ≤ s.sp) := fun ⟨hd, hfull⟩ => (hdplus hd).not_ge hfull
  have hdunder : ¬((f.dd = .minus1 ∧ s.sp < 1) ∨ (f.dd = .minus2 ∧ s.sp < 2)) := fun h =>
    h.elim (fun ⟨hd, hlow⟩ => (hdone hd).not_gt hlow) (fun ⟨hd, hlow⟩ => (hdtwo hd).not_gt hlow)
  have hrover : ¬(f.rd = .plus1 ∧ s.cfg.rcap ≤ s.rsp) := fun ⟨hd, hfull⟩ => (hrplus hd).not_ge hfull
  have hrunder : ¬((f.rd = .minus1 ∧ s.rsp < 1) ∨ (f.rd = .minus2 ∧ s.rsp < 2)) := fun h =>
    h.elim (fun ⟨hd, hlow⟩ => (hrone hd).not_gt hlow) (fun ⟨hd, hlow⟩ => (hrtwo hd).not_gt hlow)
  have hinput : ¬(f.inp = .memT ∧ s.cfg.memCells ≤ s.t.toNat) := fun ⟨hm, hout⟩ => (hin hm).not_ge hout
  have hstored : ¬(f.out = .memT ∧ s.cfg.memCells ≤ s.t.toNat) := fun ⟨hm, hout⟩ => (hstore hm).not_ge hout
  have hwritten : ¬(f.out = .ioT ∧ ¬(s.t = 0xF0 ∨ s.t = 0xF1) ∧ s.cfg.unsupportedIoFatal = true) := by
    rintro ⟨hm, hnot, hfatal⟩
    rcases or_assoc.mpr (hio hm) with hok | hfree
    · exact hnot hok
    · cases hfree.symm.trans hfatal
  simp only [firstFailing, checkTable, find_row_cons, faultIf_of_not _ hempty, faultIf_of_not _ hdover,
    faultIf_of_not _ hdunder, faultIf_of_not _ hrover, faultIf_of_not _ hrunder, faultIf_of_not _ hinput,
    faultIf_of_not _ hstored, faultIf_of_not _ hwritten, Option.none_or, List.find?_nil, Option.map_none, Option.or_none]

/-- Row 1 of R132 comes first: an operation that reads `N` faults on an empty stack, whatever else is wrong. -/
theorem exec_underflow {op : AluOp} (f : AluFields) {s : State} (hread : opReadsN op) (hempty : s.sp = 0) :
    exec (Instr.ofAlu op f) s = .next (s.raise (.stackError .data .underflow)) := by
  apply exec_of_firstFailing
  rw [firstFailing, checkTable, find_row_cons, faultIf_of _ ⟨.inr hread, hempty⟩, Option.some_or]

/-! ## Operations without a side effect -/

/-- An operation that yields `out` and changes nothing completes. -/
theorem completes_of_value {op : AluOp} {f : AluFields} {s : State} {out : StackCell} (hfit : DeltasFit f s)
    (hpass : aluFault op f s = none) (hop : operate op (sample f s) s = .value out s) :
    Completes (Instr.ofAlu op f) f s out s.t s.ds :=
  exec_leaves hfit hpass hop

/-- Settles O27: neither operation has a row of its own in R132. -/
theorem passAndComplementComplete : Obligations.PassAndComplementComplete := by
  intro f s hfit hreach
  have hin : aluFault .passIn f s = none := aluFault_eq_none_of_reach hfit hreach (by simp) nofun nofun
  have hnot : aluFault .not f s = none := aluFault_eq_none_of_reach hfit hreach (by simp) nofun nofun
  refine ⟨completes_of_value hfit hin ?_, completes_of_value hfit hnot ?_⟩
  · rw [sample_eq, operate]
  · rw [sample_eq, operate, BitVec.allOnes_sub_eq_not]

/-- Operations 3 to 7 and 9 to 11 share one rule: `OUT` is `g IN N0`, and an empty stack faults (R143 to R147, R149 to R151). -/
theorem pairs_in_with_n {op : AluOp} {g : StackCell → StackCell → StackCell} (hread : opReadsN op)
    (hop : ∀ t0 n r0 a s, operate op ⟨t0, n, r0, a⟩ s = .value (g a n) s) (f : AluFields) (s : State) :
    (1 ≤ s.sp → DeltasFit f s → MuxesReach f s → Completes (Instr.ofAlu op f) f s (g (inOf f s) (nOf s)) s.t s.ds) ∧
    (s.sp = 0 → exec (Instr.ofAlu op f) s = .next (faultedWith s (.stackError .data .underflow))) := by
  have hload : op ≠ .load := by rintro rfl; exact absurd hread (by decide)
  have hioRead : op ≠ .ioRead := by rintro rfl; exact absurd hread (by decide)
  refine ⟨fun hsome hfit hreach => completes_of_value hfit ?_ ?_, exec_underflow f hread⟩
  · exact aluFault_eq_none_of_reach hfit hreach (fun _ => hsome) (fun h => absurd h hload) (fun h => absurd h hioRead)
  · rw [sample_eq, hop]

section

variable (t0 n r0 a : StackCell) (s : State)

theorem operate_add : operate .add ⟨t0, n, r0, a⟩ s = .value (BitVec.ofNat 64 (a.toNat + n.toNat)) s := by
  simp [operate, BitVec.ofNat_add]

theorem operate_and : operate .and ⟨t0, n, r0, a⟩ s = .value (BitVec.ofNat 64 (a.toNat &&& n.toNat)) s := by
  rw [← BitVec.toNat_and, BitVec.ofNat_toNat, BitVec.setWidth_eq, operate]

theorem operate_or : operate .or ⟨t0, n, r0, a⟩ s = .value (BitVec.ofNat 64 (a.toNat ||| n.toNat)) s := by
  rw [← BitVec.toNat_or, BitVec.ofNat_toNat, BitVec.setWidth_eq, operate]

theorem operate_xor : operate .xor ⟨t0, n, r0, a⟩ s = .value (BitVec.ofNat 64 (a.toNat ^^^ n.toNat)) s := by
  rw [← BitVec.toNat_xor, BitVec.ofNat_toNat, BitVec.setWidth_eq, operate]

theorem operate_mul : operate .mul ⟨t0, n, r0, a⟩ s = .value (BitVec.ofNat 64 (a.toNat * n.toNat)) s := by
  simp [operate, BitVec.ofNat_mul]

theorem operate_eq : operate .eq ⟨t0, n, r0, a⟩ s =
    .value (if decide (a.toNat = n.toNat) then 0xFFFFFFFFFFFFFFFF else 0) s := by
  simp only [operate, cmpEq, bool64, BitVec.toNat_inj, beq_eq_decide]
  rfl

theorem operate_lt : operate .lt ⟨t0, n, r0, a⟩ s =
    .value (if decide (n.toInt < a.toInt) then 0xFFFFFFFFFFFFFFFF else 0) s := rfl

theorem operate_ult : operate .ult ⟨t0, n, r0, a⟩ s =
    .value (if decide (n.toNat < a.toNat) then 0xFFFFFFFFFFFFFFFF else 0) s := rfl

end

/-- Settles O29: each operation on cells is the one on numbers, modulo 2^64. -/
theorem arithmeticPairsInWithN : Obligations.ArithmeticPairsInWithN := by
  simp only [Obligations.ArithmeticPairsInWithN, List.mem_cons, List.not_mem_nil, or_false, forall_eq_or_imp, forall_eq]
  refine ⟨?add, ?and, ?or, ?xor, ?mul⟩
  case add => exact pairs_in_with_n (by decide) operate_add
  case and => exact pairs_in_with_n (by decide) operate_and
  case or => exact pairs_in_with_n (by decide) operate_or
  case xor => exact pairs_in_with_n (by decide) operate_xor
  case mul => exact pairs_in_with_n (by decide) operate_mul

/-- Settles O30: each comparison of cells is the one of the numbers they stand for. -/
theorem comparisonsLeaveBooleans : Obligations.ComparisonsLeaveBooleans := by
  simp only [Obligations.ComparisonsLeaveBooleans, List.mem_cons, List.not_mem_nil, or_false, forall_eq_or_imp, forall_eq]
  refine ⟨?eq, ?lt, ?ult⟩
  case eq => exact pairs_in_with_n (by decide) operate_eq
  case lt => exact pairs_in_with_n (by decide) operate_lt
  case ult => exact pairs_in_with_n (by decide) operate_ult

/-- The model's shift is the rule of R152 and R153 in numbers: exact up to 63, `SHIFT_OVER` from 64 on. -/
theorem shiftCell_eq_shiftRule (c : Config) (dir : ShiftDir) (v count : StackCell) :
    shiftCell c dir v count = shiftRule c dir v count := by
  unfold shiftCell shiftRule
  by_cases hcount : count.toNat < 64
  · rw [if_pos (Nat.lt_succ_iff.mp hcount), if_pos hcount]
    apply BitVec.eq_of_toNat_eq
    cases dir with
    | left => rw [BitVec.toNat_shiftLeft, Nat.shiftLeft_eq, BitVec.toNat_ofNat]
    | right => rw [← Nat.shiftRight_eq_div_pow, ← BitVec.toNat_ushiftRight, BitVec.ofNat_toNat, BitVec.setWidth_eq]
  · rw [if_neg (mt Nat.lt_succ_iff.mpr hcount), if_neg hcount]
    rfl

/-- Settles O31: the count is `T0` as it was sampled, and a shift has no row of its own in R132. -/
theorem shiftsCountByT : Obligations.ShiftsCountByT := by
  intro f s hfit hreach
  have hshr : aluFault .shr f s = none := aluFault_eq_none_of_reach hfit hreach (by simp) nofun nofun
  have hshl : aluFault .shl f s = none := aluFault_eq_none_of_reach hfit hreach (by simp) nofun nofun
  rw [← shiftCell_eq_shiftRule, ← shiftCell_eq_shiftRule]
  refine ⟨completes_of_value hfit hshr ?_, completes_of_value hfit hshl ?_⟩
  · rw [sample_eq, operate]
  · rw [sample_eq, operate]

/-- Settles O32: the load's own row of R132 is the first that can fail; the value is read of the memory at the start. -/
theorem loadReadsTheCellAtIn : Obligations.LoadReadsTheCellAtIn := by
  intro f s hfit hreach
  refine ⟨fun hinside => completes_of_value (op := .load) hfit ?_ ?_, fun hbeyond => ?_⟩
  · exact aluFault_eq_none_of_reach hfit hreach (by simp) (fun _ => hinside) nofun
  · rw [sample_eq, operate]
    rfl
  · apply exec_of_firstFailing (op := .load)
    rw [firstFailing_of_reach hfit hreach (by simp), faultIf_of _ ⟨rfl, hbeyond⟩, Option.some_or]

/-! ## Operations with a side effect -/

theorem operate_swap (f : AluFields) (s : State) : operate .swapTN (sample f s) s =
    .value (inOf f s) { s with t := nOf s, ds := s.ds.set (s.sp - 1) s.t } := by
  rw [sample_eq, operate]

theorem operate_copy (f : AluFields) (s : State) :
    operate .copyNToT (sample f s) s = .value (inOf f s) { s with t := nOf s } := by
  rw [sample_eq, operate]

/-- Settles O28: the side effect is in the state that phases 4 to 7 start from, and `IN` was sampled before it. -/
theorem swapAndCopyMoveTheTop : Obligations.SwapAndCopyMoveTheTop := by
  intro f s
  refine ⟨fun hsome hfit hreach => ?_, fun hempty => ?_⟩
  · have hswap : aluFault .swapTN f s = none := aluFault_eq_none_of_reach hfit hreach (fun _ => hsome) nofun nofun
    have hcopy : aluFault .copyNToT f s = none := aluFault_eq_none_of_reach hfit hreach (fun _ => hsome) nofun nofun
    exact ⟨exec_leaves hfit hswap (operate_swap f s), exec_leaves hfit hcopy (operate_copy f s)⟩
  · exact ⟨exec_underflow (op := .swapTN) f (by decide) hempty, exec_underflow (op := .copyNToT) f (by decide) hempty⟩

theorem ioRead_of_byte {a : StackCell} {s : State} {b : Byte} {rest : List Byte} (ha : a = ioByteIn)
    (hq : s.inq = b :: rest) : ioRead a s = .value (b.setWidth 64) { s with inq := rest } := by
  rw [ioRead, if_pos ha, hq]

theorem ioRead_of_free {a : StackCell} {s : State} (ha : a ≠ ioByteIn) (hfree : s.cfg.unsupportedIoFatal = false) :
    ioRead a s = .value (freeRead s.freeReads) { s with freeReads := s.freeReads + 1 } := by
  rw [ioRead, if_neg ha, if_neg (Bool.eq_false_iff.mp hfree)]

/-- Where the deltas fit and the muxes reach, an I/O read has two rows of R132 left: a fatal address and the end of the input. -/
theorem firstFailing_ioRead {f : AluFields} {s : State} (hfit : DeltasFit f s) (hreach : MuxesReach f s) :
    firstFailing .ioRead f s =
      (faultIf (decide (inOf f s ≠ 0xE0 ∧ s.cfg.unsupportedIoFatal = true)) (.unsupportedOperation .read (inOf f s))).or
        (faultIf (decide (inOf f s = 0xE0 ∧ s.inq = [] ∧ s.inClosed = true)) .ioError) := by
  rw [firstFailing_of_reach hfit hreach (by simp), faultIf_of_not _ (by simp), Option.none_or]
  simp only [endOfInput, true_and]

/-- Settles O33: the faults are the two rows of `firstFailing_ioRead`, and the hold is what is left of an empty stream; a byte and a
free value are taken by `ioRead`'s own side effect. -/
theorem ioReadTakesAByte : Obligations.IoReadTakesAByte := by
  intro f s hfit hreach
  have hrow := firstFailing_ioRead hfit hreach
  have hpass (hfree : inOf f s ≠ 0xE0 → s.cfg.unsupportedIoFatal = false) : aluFault .ioRead f s = none :=
    aluFault_eq_none_of_reach hfit hreach (by simp) nofun fun _ => hfree
  refine ⟨fun b rest hin hq => ?byte, fun hin hq hclosed => ?eof, fun hin hq hopen => ?held, fun hin hfatal => ?fatal,
    fun hin hfree => ?free⟩
  case byte =>
    exact exec_leaves hfit (hpass (absurd hin)) ((operate_ioRead f s).trans (ioRead_of_byte hin hq))
  case eof =>
    apply exec_of_firstFailing (op := .ioRead)
    rw [hrow, faultIf_of_not _ (fun ⟨hne, _⟩ => hne hin), faultIf_of _ ⟨hin, hq, hclosed⟩, Option.none_or]
  case held =>
    refine exec_of_needsByte (op := .ioRead) ?_ ⟨rfl, hin, hq, hopen⟩
    rw [hrow, faultIf_of_not _ (fun ⟨hne, _⟩ => hne hin), faultIf_of_not _ (by simp [hopen]), Option.none_or]
  case fatal =>
    apply exec_of_firstFailing (op := .ioRead)
    rw [hrow, faultIf_of _ ⟨hin, hfatal⟩, Option.some_or]
  case free =>
    exact exec_leaves hfit (hpass fun _ => hfree) ((operate_ioRead f s).trans (ioRead_of_free hin hfree))

end Sys2Proof.Proofs
end

section
/-! PROOF. The I/O space and the host (43_io.md R190 to R196, 70_reset_and_hazards.md R265): a write that no device takes, the bytes of
the multi-byte output, and a held read after each of the host's two actions. -/

namespace Sys2Proof.Proofs

open Sys2Proof.Machine Sys2Proof.Claim

/-! ## A write to an unrecognised address (R193, R196) -/

/-- Where an unrecognised address is fatal, row 8 of R132 does not pass. -/
theorem aluFault_ne_none_of_unrecognised {op : AluOp} {f : AluFields} {s : State} (hout : f.out = .ioT)
    (haddr : ¬(s.t = 0xF0 ∨ s.t = 0xF1)) (hfatal : s.cfg.unsupportedIoFatal = true) : aluFault op f s ≠ none := by
  intro hpass
  obtain ⟨-, -, -, -, -, -, -, hwrite⟩ := (aluFault_eq_none op f s).mp hpass
  cases (hwrite hout ((ioWritable_eq_false_iff s.t).mpr haddr)).symm.trans hfatal

/-- Settles O35: row 8 of R132 is there to fail, if no earlier row does; and a commit appends nothing for such an address. -/
theorem unrecognisedIoWrite : Obligations.UnrecognisedIoWrite := by
  intro op f s hout hmulti hbyte
  refine ⟨fun hfatal => ?fatal, fun _ t hnext => ?free⟩
  case fatal =>
    obtain ⟨k, hk⟩ := Option.ne_none_iff_exists'.mp
      (aluFault_ne_none_of_unrecognised (op := op) hout (not_or_intro hmulti hbyte) hfatal)
    exact ⟨k, exec_of_firstFailing (by rw [firstFailing_eq, hk, Option.some_or])⟩
  case free =>
    rw [exec_ofAlu] at hnext
    rcases aluRun_next hnext with ⟨k, rfl⟩ | ⟨out, s1, hpass, hop, rfl⟩
    · exact ⟨rfl, rfl⟩
    · have hleaves := aluFinish_leaves (deltasFit_of_pass hpass) hop
      refine ⟨?_, hleaves.memKept (by simp [hout])⟩
      rw [hleaves.outq, if_neg (not_not_intro hout), if_neg hbyte, if_neg hmulti]

/-! ## The bytes of the multi-byte output (R195) -/

theorem bitlen_le_iff (n b : Nat) : bitlen n ≤ b ↔ n < 2 ^ b :=
  ⟨fun h => (lt_two_pow_bitlen n).trans_le (Nat.pow_le_pow_right Nat.two_pos h), bitlen_le_of_lt⟩

/-- The significant bits, rounded up to whole bytes, are as many bytes as the number has digits in base 256. -/
theorem length_digits_256 (n : Nat) : (Nat.digits 256 n).length = (bitlen n + 7) / 8 := by
  refine eq_of_forall_ge_iff fun k => ?_
  have hpow : 256 ^ k = 2 ^ (8 * k) := (Nat.pow_mul 2 8 k).symm
  have hround : (bitlen n + 7) / 8 ≤ k ↔ bitlen n ≤ 8 * k := by omega
  rw [Nat.digits_length_le_iff (by decide), hround, bitlen_le_iff, hpow]

theorem toNat_byte (v : StackCell) (i : Nat) : (v.extractLsb' (8 * i) 8).toNat = v.toNat / 256 ^ i % 256 := by
  rw [BitVec.extractLsb'_toNat, Nat.shiftRight_eq_div_pow, Nat.pow_mul]

/-- The bytes address `0xF0` appends are the digits of the value in base 256, low first: its bytes without leading zeros. -/
theorem map_toNat_multiBytes (v : StackCell) : (multiBytes v).map BitVec.toNat = Nat.digits 256 v.toNat := by
  apply List.ext_getElem
  · rw [length_digits_256, multiBytes, List.length_map, List.length_map, List.length_range]
  · intro i _ hi
    rw [← List.getD_eq_getElem _ 0 hi, Nat.getD_digits _ _ (by decide)]
    simp only [multiBytes, List.getElem_map, List.getElem_range, toNat_byte]

theorem length_multiBytes (v : StackCell) : (multiBytes v).length = (Nat.digits 256 v.toNat).length := by
  rw [← map_toNat_multiBytes, List.length_map]

theorem outq_ioWrite_multi (s : State) (v : StackCell) : (s.ioWrite 0xF0 v).outq = s.outq ++ multiBytes v := by
  rw [State.ioWrite, append_ioOutBytes, if_neg (by decide), if_pos rfl]

/-- Settles O42: the bytes are the digits in base 256, which make up the number and end in one that is not zero. -/
theorem multiByteOutputIsMinimal : Obligations.MultiByteOutputIsMinimal := by
  intro v
  refine ⟨fun s => outq_ioWrite_multi s v, ?value, ?length, fun b hlast => ?last⟩
  case value =>
    calc (multiBytes v).foldr (fun b acc => 256 * acc + b.toNat) 0
        = Nat.ofDigits 256 ((multiBytes v).map BitVec.toNat) := by
          simp only [Nat.ofDigits_eq_foldr, List.foldr_map, Nat.cast_id, Nat.add_comm]
      _ = v.toNat := by rw [map_toNat_multiBytes, Nat.ofDigits_digits]
  case length =>
    rw [length_multiBytes, Nat.digits_length_le_iff (by decide)]
    exact v.isLt
  case last =>
    have hdigit : (Nat.digits 256 v.toNat).getLast? = some b.toNat := by
      rw [← map_toNat_multiBytes, List.getLast?_map, hlast, Option.map_some]
    have hv : v.toNat ≠ 0 := by
      intro hzero
      simp [hzero] at hdigit
    rintro rfl
    exact Nat.getLast_digit_ne_zero 256 hv ((List.getLast_eq_iff_getLast?_eq_some _).mpr hdigit)

/-! ## The host and a held read (R192, R265) -/

section

variable {s : State}

theorem hostAppend_of_open (hrun : s.status = .running) (hopen : s.inClosed = false) (bytes : List Byte) :
    s.hostAppend bytes = some { s with inq := s.inq ++ bytes } :=
  if_pos ⟨hrun, hopen⟩

theorem hostClose_of_open (hrun : s.status = .running) (hopen : s.inClosed = false) :
    s.hostClose = some { s with inClosed := true } :=
  if_pos ⟨hrun, hopen⟩

/-- The fetch does not read the input stream: with any bytes waiting, open or closed, the same instruction is next. -/
theorem step_with_input {i : Instr} (hrun : s.status = .running) (heip : s.eip.toNat < s.cfg.memCells)
    (hfetch : decode (s.mem.readCell s.eip.toNat) = i) (q : List Byte) (closed : Bool) :
    step { s with inq := q, inClosed := closed } = exec i { s with inq := q, inClosed := closed } := by
  rw [← hfetch]
  exact step_in_memory hrun heip

end

/-- Settles O43: the host's actions leave the instruction next and the conditions of O33 true, so its clauses apply to the state before
and after each. -/
theorem hostLiftsTheHold : Obligations.HostLiftsTheHold := by
  intro s f hrun heip hfetch hfit hreach hin hempty hopen
  have hstep := step_with_input hrun heip hfetch
  refine ⟨?held, fun b bytes => ?append, ?close⟩
  case held =>
    obtain ⟨-, -, hheld, -⟩ := ioReadTakesAByte f s hfit hreach
    exact (hstep s.inq s.inClosed).trans (hheld hin hempty hopen)
  case append =>
    have hqueue : s.inq ++ b :: bytes = b :: bytes := by rw [hempty, List.nil_append]
    obtain ⟨hbyte, -⟩ := ioReadTakesAByte f { s with inq := s.inq ++ b :: bytes } hfit hreach
    obtain ⟨t, hexec, hleaves, hinq, -⟩ := hbyte b bytes hin hqueue
    exact ⟨_, t, hostAppend_of_open hrun hopen _, (hstep _ s.inClosed).trans hexec, hleaves.status.trans hrun, hinq⟩
  case close =>
    obtain ⟨-, heof, -⟩ := ioReadTakesAByte f { s with inClosed := true } hfit hreach
    exact ⟨_, hostClose_of_open hrun hopen, (hstep s.inq true).trans (heof hin hempty rfl)⟩

end Sys2Proof.Proofs
end

section
/-! PROOF. The single-instruction words (44_words.md R211) on the logical stacks (R29). Each word is a few stack operations and a
commit, so its stack effect is that of the operations. -/

namespace Sys2Proof.Proofs

open Sys2Proof.Machine Sys2Proof.Claim

/-! ## The stack operations on the logical stacks -/

/-- A logical stack that holds an element has a depth, and its last element is the cached top (R29). -/
theorem stackList_concat {cells xs : List StackCell} {depth : Nat} {top a : StackCell}
    (h : stackList cells depth top = xs ++ [a]) : 1 ≤ depth ∧ top = a := by
  unfold stackList at h
  split at h
  case isTrue => simp at h
  case isFalse hdepth =>
    obtain ⟨-, htop⟩ := List.append_inj' h rfl
    exact ⟨Nat.one_le_iff_ne_zero.mpr hdepth, List.singleton_inj.mp htop⟩

/-- Another cached top is another last element. -/
theorem stackList_replace {cells xs : List StackCell} {depth : Nat} {top a : StackCell}
    (h : stackList cells depth top = xs ++ [a]) (v : StackCell) : stackList cells depth v = xs ++ [v] := by
  obtain ⟨hsome, rfl⟩ := stackList_concat h
  have hdepth : depth ≠ 0 := Nat.one_le_iff_ne_zero.mp hsome
  simp only [stackList, if_neg hdepth] at h ⊢
  rw [List.append_cancel_right h]

section

variable {s : State} {xs : List StackCell} {a b : StackCell}

theorem dstack_dPush (hinv : Inv s) (hroom : s.sp < s.cfg.dcap) (v : StackCell) : (s.dPush v).dstack = s.dstack ++ [v] :=
  stackList_push s.t v (hinv.dsLength ▸ hroom)

theorem rstack_rPush (hinv : Inv s) (hroom : s.rsp < s.cfg.rcap) (v : StackCell) : (s.rPush v).rstack = s.rstack ++ [v] :=
  stackList_push s.r v (hinv.rsLength ▸ hroom)

theorem top_of_dstack (h : s.dstack = xs ++ [a]) : 1 ≤ s.sp ∧ s.t = a := stackList_concat h

theorem top_of_rstack (h : s.rstack = xs ++ [a]) : 1 ≤ s.rsp ∧ s.r = a := stackList_concat h

theorem dstack_setTop (h : s.dstack = xs ++ [a]) (v : StackCell) : ({ s with t := v } : State).dstack = xs ++ [v] :=
  stackList_replace h v

theorem dstack_dPop (hinv : Inv s) (h : s.dstack = xs ++ [a]) : s.dPop.dstack = xs := by
  obtain ⟨hsome, -⟩ := top_of_dstack h
  have hpop : s.dPop.dstack = s.dstack.dropLast := stackList_pop s.t hsome (hinv.dsLength ▸ hinv.spBound)
  rw [hpop, h, List.dropLast_concat]

theorem rstack_rPop (hinv : Inv s) (h : s.rstack = xs ++ [a]) : s.rPop.rstack = xs := by
  obtain ⟨hsome, -⟩ := top_of_rstack h
  have hpop : s.rPop.rstack = s.rstack.dropLast := stackList_pop s.r hsome (hinv.rsLength ▸ hinv.rspBound)
  rw [hpop, h, List.dropLast_concat]

/-- One pop of two elements leaves the first on top. -/
theorem dstack_dPop_of_two (hinv : Inv s) (h : s.dstack = xs ++ [a, b]) : s.dPop.dstack = xs ++ [a] :=
  dstack_dPop hinv (h.trans (List.append_cons xs a [b]))

theorem dstack_dPop_dPop (hinv : Inv s) (h : s.dstack = xs ++ [a, b]) : s.dPop.dPop.dstack = xs :=
  dstack_dPop (dPop_inv hinv) (dstack_dPop_of_two hinv h)

/-- Of two elements the last is `T` and the one below it `N` (R12). -/
theorem operands_of_two (hinv : Inv s) (h : s.dstack = xs ++ [a, b]) : 2 ≤ s.sp ∧ s.nos = a ∧ s.t = b := by
  obtain ⟨hsome, htop⟩ := top_of_dstack (h.trans (List.append_cons xs a [b]))
  obtain ⟨hbelow, hnos⟩ := top_of_dstack (dstack_dPop_of_two hinv h)
  exact ⟨(Nat.le_sub_iff_add_le hsome).mp hbelow, hnos, htop⟩

end

/-! ## Words that leave a value in `T` -/

/-- The fields of a word `->T` that does not move the return stack. -/
def toTop (inp : InMux) (dd : Delta) : AluFields := { ret := false, inp := inp, out := .t, rd := .zero, dd := dd }

/-- The word addresses neither memory nor the I/O space, so the rows of R132 left to it are those of the data stack. -/
abbrev StackOnly (op : AluOp) (inp : InMux) : Prop := inp ≠ .memT ∧ op ≠ .load ∧ op ≠ .ioRead

theorem aluFault_toTop {op : AluOp} {inp : InMux} {dd : Delta} {s : State} (hop : StackOnly op inp)
    (hsome : inp = .n ∨ opReadsN op ∨ dd = .minus1 → 1 ≤ s.sp) (hroom : dd = .plus1 → s.sp < s.cfg.dcap)
    (hdelta : dd ≠ .minus2) : aluFault op (toTop inp dd) s = none := by
  obtain ⟨hinp, hload, hread⟩ := hop
  have hfit : DeltasFit (toTop inp dd) s :=
    ⟨hroom, fun h => hsome (.inr (.inr h)), fun h => absurd h hdelta, nofun, nofun, nofun⟩
  have hreach : MuxesReach (toTop inp dd) s := ⟨fun h => hsome (.inl h), fun h => absurd h hinp, nofun, nofun⟩
  exact aluFault_eq_none_of_reach hfit hreach (fun h => hsome (.inr (.inl h))) (fun h => absurd h hload)
    (fun h => absurd h hread)

section

variable {w : MemCell} {op : AluOp} {inp : InMux} {dd : Delta} {s s1 : State} {xs : List StackCell} {a b v e : StackCell}

/-- A word `->T` is its data delta with `v` put in `T` (R156, R162). -/
theorem exec_toTop (hw : decode w = Instr.ofAlu op (toTop inp dd)) (hpass : aluFault op (toTop inp dd) s = none)
    (hvalue : operate op (sample (toTop inp dd) s) s = .value v s1) :
    exec (decode w) s = .next (({ dataDelta dd s1 with t := v } : State).commit (s.eip + 1)) := by
  rw [hw, exec_ofAlu_value hpass hvalue]
  rfl

/-- A word that puts `v` in the place of the top. -/
theorem leaves_replaced (hexec : exec (decode w) s = .next (({ s with t := v } : State).commit e))
    (h : s.dstack = xs ++ [a]) : Leaves w s (xs ++ [v]) s.rstack :=
  ⟨_, hexec, dstack_setTop h v, rfl⟩

/-- A word that pushes `v`. -/
theorem leaves_pushed (hexec : exec (decode w) s = .next ((s.dPush v).commit e)) (hinv : Inv s)
    (hroom : s.sp < s.cfg.dcap) : Leaves w s (s.dstack ++ [v]) s.rstack :=
  ⟨_, hexec, dstack_dPush hinv hroom v, rfl⟩

/-- A word that pops the top and puts `v` in the place of the element below it. -/
theorem leaves_combined (hexec : exec (decode w) s = .next (({ s.dPop with t := v } : State).commit e)) (hinv : Inv s)
    (h : s.dstack = xs ++ [a, b]) : Leaves w s (xs ++ [v]) s.rstack :=
  ⟨_, hexec, dstack_setTop (dstack_dPop_of_two hinv h) v, rfl⟩

end

/-! ## The data-stack words -/

section

variable {s : State} {xs : List StackCell} {a b : StackCell}

/-- `noop` works on an empty stack too: `T` onto itself. -/
theorem leaves_noop (s : State) : Leaves 0x6400 s s.dstack s.rstack := by
  have hpass : aluFault .passIn (toTop .t .zero) s = none := aluFault_toTop (by decide) (by simp) nofun nofun
  have hexec : exec (decode 0x6400) s = .next (s.commit (s.eip + 1)) := exec_toTop rfl hpass rfl
  exact ⟨_, hexec, rfl, rfl⟩

/-- `drop` loads `N` as the top, which is the pop. -/
theorem leaves_drop (hinv : Inv s) (h : s.dstack = xs ++ [a]) : Leaves 0x6003 s xs s.rstack := by
  obtain ⟨hsome, -⟩ := top_of_dstack h
  have hpass : aluFault .passIn (toTop .n .minus1) s = none := aluFault_toTop (by decide) (fun _ => hsome) nofun nofun
  have hexec : exec (decode 0x6003) s = .next (s.dPop.commit (s.eip + 1)) := exec_toTop rfl hpass rfl
  exact ⟨_, hexec, dstack_dPop hinv h, rfl⟩

theorem leaves_invert (h : s.dstack = xs ++ [a]) : Leaves 0x6480 s (xs ++ [~~~a]) s.rstack := by
  obtain ⟨-, rfl⟩ := top_of_dstack h
  exact leaves_replaced (exec_wordInvert s) h

theorem leaves_one_plus (h : s.dstack = xs ++ [a]) : Leaves 0xC001 s (xs ++ [a + 1]) s.rstack := by
  obtain ⟨-, rfl⟩ := top_of_dstack h
  exact leaves_replaced (exec_litAdd 1 0 s) h

theorem leaves_dup (hinv : Inv s) (h : s.dstack = xs ++ [a]) (hroom : s.sp < s.cfg.dcap) :
    Leaves 0x6401 s (xs ++ [a, a]) s.rstack := by
  obtain ⟨-, rfl⟩ := top_of_dstack h
  have hpass : aluFault .passIn (toTop .t .plus1) s = none := aluFault_toTop (by decide) (by simp) (fun _ => hroom) nofun
  have hexec : exec (decode 0x6401) s = .next ((s.dPush s.t).commit (s.eip + 1)) := exec_toTop rfl hpass rfl
  rw [List.append_cons, ← h]
  exact leaves_pushed hexec hinv hroom

/-- `swap` is a pop, the old `T` put on top, and a push of the old `N`. -/
theorem leaves_swap (hinv : Inv s) (h : s.dstack = xs ++ [a, b]) : Leaves 0x6010 s (xs ++ [b, a]) s.rstack := by
  obtain ⟨htwo, rfl, rfl⟩ := operands_of_two hinv h
  have hsome : 1 ≤ s.sp := Nat.one_le_of_lt htwo
  have hcell : s.sp - 1 < s.ds.length := (Nat.sub_one_lt_of_le hsome le_rfl).trans_le (hinv.dsLength ▸ hinv.spBound)
  have hbelow : stackList s.ds (s.sp - 1) s.t = xs ++ [s.t] := stackList_replace (dstack_dPop_of_two hinv h) s.t
  have hpass : aluFault .swapTN (toTop .n .zero) s = none := aluFault_toTop (by decide) (fun _ => hsome) nofun nofun
  refine ⟨_, exec_toTop (op := .swapTN) rfl hpass rfl, ?_, rfl⟩
  calc stackList (s.ds.set (s.sp - 1) s.t) s.sp s.nos
      = stackList (s.ds.set (s.sp - 1) s.t) (s.sp - 1 + 1) s.nos := by rw [Nat.sub_add_cancel hsome]
    _ = xs ++ [s.t] ++ [s.nos] := by rw [stackList_push _ _ hcell, hbelow]
    _ = xs ++ [s.t, s.nos] := (List.append_cons ..).symm

theorem leaves_over (hinv : Inv s) (h : s.dstack = xs ++ [a, b]) (hroom : s.sp < s.cfg.dcap) :
    Leaves 0x6001 s (xs ++ [a, b, a]) s.rstack := by
  obtain ⟨htwo, rfl, rfl⟩ := operands_of_two hinv h
  have hpass : aluFault .passIn (toTop .n .plus1) s = none :=
    aluFault_toTop (by decide) (fun _ => Nat.one_le_of_lt htwo) (fun _ => hroom) nofun
  have hexec : exec (decode 0x6001) s = .next ((s.dPush s.nos).commit (s.eip + 1)) := exec_toTop rfl hpass rfl
  have hlist : xs ++ [s.nos, s.t, s.nos] = s.dstack ++ [s.nos] := by rw [h, List.append_assoc]; rfl
  rw [hlist]
  exact leaves_pushed hexec hinv hroom

theorem leaves_over_plus (hinv : Inv s) (h : s.dstack = xs ++ [a, b]) :
    Leaves 0x6430 s (xs ++ [a, a + b]) s.rstack := by
  obtain ⟨htwo, rfl, rfl⟩ := operands_of_two hinv h
  have hpass : aluFault .add (toTop .t .zero) s = none :=
    aluFault_toTop (by decide) (fun _ => Nat.one_le_of_lt htwo) nofun nofun
  have hexec : exec (decode 0x6430) s = .next (({ s with t := s.t + s.nos } : State).commit (s.eip + 1)) :=
    exec_toTop rfl hpass rfl
  rw [List.append_cons] at h ⊢
  rw [BitVec.add_comm]
  exact leaves_replaced hexec h

/-- A word `d-1` whose operation takes `T` as `IN` and makes `g` of it and `N`; neither side effect nor address. -/
theorem leaves_pair {w : MemCell} {op : AluOp} {g : StackCell → StackCell → StackCell}
    (hw : decode w = Instr.ofAlu op (toTop .t .minus1)) (hop : StackOnly op .t)
    (hvalue : ∀ t0 n r0 x s, operate op ⟨t0, n, r0, x⟩ s = .value (g x n) s) (hinv : Inv s)
    (h : s.dstack = xs ++ [a, b]) : Leaves w s (xs ++ [g b a]) s.rstack := by
  obtain ⟨htwo, rfl, rfl⟩ := operands_of_two hinv h
  have hpass : aluFault op (toTop .t .minus1) s = none :=
    aluFault_toTop hop (fun _ => Nat.one_le_of_lt htwo) nofun nofun
  exact leaves_combined (exec_toTop hw hpass (hvalue ..)) hinv h

theorem leaves_rshift (hinv : Inv s) (h : s.dstack = xs ++ [a, b]) (hcount : b.toNat < 64) :
    Leaves 0x60C3 s (xs ++ [a >>> b.toNat]) s.rstack := by
  obtain ⟨htwo, rfl, rfl⟩ := operands_of_two hinv h
  have hpass : aluFault .shr (toTop .n .minus1) s = none :=
    aluFault_toTop (by decide) (fun _ => Nat.one_le_of_lt htwo) nofun nofun
  have hshift : shiftCell s.cfg .right s.nos s.t = s.nos >>> s.t.toNat := if_pos (Nat.le_of_lt_succ hcount)
  rw [← hshift]
  exact leaves_combined (exec_toTop (op := .shr) rfl hpass rfl) hinv h

theorem leaves_lshift (hinv : Inv s) (h : s.dstack = xs ++ [a, b]) (hcount : b.toNat < 64) :
    Leaves 0x60D3 s (xs ++ [a <<< b.toNat]) s.rstack := by
  obtain ⟨htwo, rfl, rfl⟩ := operands_of_two hinv h
  exact leaves_combined (exec_wordLshift (Nat.one_le_of_lt htwo) (Nat.le_of_lt_succ hcount)) hinv h

end

/-- Settles O45: the words with a shape of their own by their lemmas, the others by `leaves_pair`, whose operation has the last
element on its left (R143 to R151). -/
theorem dataWordsHaveTheirStackEffects : Obligations.DataWordsHaveTheirStackEffects := by
  intro s xs hinv
  refine ⟨leaves_noop s, fun a h => ⟨leaves_drop hinv h, leaves_invert h, leaves_one_plus h, leaves_dup hinv h⟩,
    fun a b h => ⟨leaves_swap hinv h, ?nip, ?add, leaves_over_plus hinv h, ?and, ?or, ?xor, ?mul, ?eq, ?lt, ?ult,
      fun hcount => ⟨leaves_rshift hinv h hcount, leaves_lshift hinv h hcount⟩, leaves_over hinv h⟩⟩
  case nip => exact leaves_pair (op := .passIn) (g := fun x _ => x) rfl (by decide) (fun _ _ _ _ _ => rfl) hinv h
  case add =>
    rw [BitVec.add_comm]
    exact leaves_pair (op := .add) rfl (by decide) (fun _ _ _ _ _ => rfl) hinv h
  case and =>
    rw [BitVec.and_comm]
    exact leaves_pair (op := .and) rfl (by decide) (fun _ _ _ _ _ => rfl) hinv h
  case or =>
    rw [BitVec.or_comm]
    exact leaves_pair (op := .or) rfl (by decide) (fun _ _ _ _ _ => rfl) hinv h
  case xor =>
    rw [BitVec.xor_comm]
    exact leaves_pair (op := .xor) rfl (by decide) (fun _ _ _ _ _ => rfl) hinv h
  case mul =>
    rw [BitVec.mul_comm]
    exact leaves_pair (op := .mul) rfl (by decide) (fun _ _ _ _ _ => rfl) hinv h
  case eq =>
    rw [BEq.comm]
    exact leaves_pair (op := .eq) (g := cmpEq) rfl (by decide) (fun _ _ _ _ _ => rfl) hinv h
  case lt => exact leaves_pair (op := .lt) (g := cmpLt) rfl (by decide) (fun _ _ _ _ _ => rfl) hinv h
  case ult => exact leaves_pair (op := .ult) (g := cmpULt) rfl (by decide) (fun _ _ _ _ _ => rfl) hinv h

/-! ## The return-stack, memory and I/O words -/

section

variable {s : State} {xs ys : List StackCell} {a x : StackCell}

/-- `>r` pops `T` and pushes it on the return stack. -/
theorem leaves_to_r (hinv : Inv s) (h : s.dstack = xs ++ [a]) (hroom : s.rsp < s.cfg.rcap) :
    Leaves 0x6507 s xs (s.rstack ++ [a]) := by
  obtain ⟨hsome, rfl⟩ := top_of_dstack h
  have hpass : aluFault .passIn ⟨false, .t, .r, .plus1, .minus1⟩ s = none :=
    aluFault_eq_none_of_reach (by simp [DeltasFit, hsome, hroom]) (by simp [MuxesReach]) (by simp) nofun nofun
  have hexec : exec (decode 0x6507) s = .next ((s.dPop.rPush s.t).commit (s.eip + 1)) :=
    exec_ofAlu_value (op := .passIn) hpass rfl
  exact ⟨_, hexec, dstack_dPop hinv h, rstack_rPush hinv hroom s.t⟩

/-- `r>` pushes `R` and pops it from the return stack. -/
theorem leaves_r_from (hinv : Inv s) (h : s.rstack = ys ++ [a]) (hroom : s.sp < s.cfg.dcap) :
    Leaves 0x6C0D s (s.dstack ++ [a]) ys := by
  obtain ⟨hsome, rfl⟩ := top_of_rstack h
  have hpass : aluFault .passIn ⟨false, .r, .t, .minus1, .plus1⟩ s = none :=
    aluFault_eq_none_of_reach (by simp [DeltasFit, hsome, hroom]) (by simp [MuxesReach]) (by simp) nofun nofun
  have hexec : exec (decode 0x6C0D) s = .next ((s.dPush s.r).rPop.commit (s.eip + 1)) :=
    exec_ofAlu_value (op := .passIn) hpass rfl
  exact ⟨_, hexec, dstack_dPush hinv hroom s.r, rstack_rPop (dPush_inv s.r hinv hroom) h⟩

theorem leaves_r_fetch (hinv : Inv s) (h : s.rstack = ys ++ [a]) (hroom : s.sp < s.cfg.dcap) :
    Leaves 0x6C01 s (s.dstack ++ [a]) s.rstack := by
  obtain ⟨-, rfl⟩ := top_of_rstack h
  have hpass : aluFault .passIn (toTop .r .plus1) s = none := aluFault_toTop (by decide) (by simp) (fun _ => hroom) nofun
  have hexec : exec (decode 0x6C01) s = .next ((s.dPush s.r).commit (s.eip + 1)) := exec_toTop rfl hpass rfl
  exact leaves_pushed hexec hinv hroom

/-- `exit` pops the return stack and goes on at the `R` it popped (R161). -/
theorem exec_exit (hsome : 1 ≤ s.rsp) : exec (decode 0x740C) s = .next (s.rPop.commit s.r) := by
  have hpass : aluFault .passIn ⟨true, .t, .t, .minus1, .zero⟩ s = none :=
    aluFault_eq_none_of_reach (by simp [DeltasFit, hsome]) (by simp [MuxesReach]) (by simp) nofun nofun
  exact exec_ofAlu_value (op := .passIn) hpass rfl

theorem leaves_fetch (h : s.dstack = xs ++ [a]) (haddr : a.toNat < s.cfg.memCells) :
    Leaves 0x6800 s (xs ++ [(s.mem.readCell a.toNat).setWidth 64]) s.rstack := by
  obtain ⟨-, rfl⟩ := top_of_dstack h
  have hpass : aluFault .passIn (toTop .memT .zero) s = none :=
    aluFault_eq_none_of_reach (by simp [DeltasFit, toTop]) (by simpa [MuxesReach, toTop] using haddr) (by simp) nofun nofun
  have hexec : exec (decode 0x6800) s = .next (({ s with t := s.loadCell s.t } : State).commit (s.eip + 1)) :=
    exec_toTop rfl hpass rfl
  exact leaves_replaced hexec h

/-- `!` stores `N` at the address `T` and pops both. -/
theorem exec_store (htwo : 2 ≤ s.sp) (haddr : s.t.toNat < s.cfg.memCells) :
    exec (decode 0x6202) s = .next ((s.dPop.dPop.storeCell s.t s.nos).commit (s.eip + 1)) := by
  have hpass : aluFault .passIn ⟨false, .n, .memT, .zero, .minus2⟩ s = none :=
    aluFault_eq_none_of_reach (by simp [DeltasFit, htwo]) (by simp [MuxesReach, haddr, Nat.one_le_of_lt htwo]) (by simp)
      nofun nofun
  exact exec_ofAlu_value (op := .passIn) hpass rfl

/-- `io@` at `0xE0` puts the first input byte in the place of the address (R191). -/
theorem exec_io_fetch {b : Byte} {rest : List Byte} (haddr : s.t = 0xE0) (hinq : s.inq = b :: rest) :
    exec (decode 0x64F0) s =
      .next (({ s with t := b.setWidth 64, inq := rest } : State).commit (s.eip + 1)) := by
  have hpass : aluFault .ioRead (toTop .t .zero) s = none :=
    aluFault_eq_none_of_reach (by simp [DeltasFit, toTop]) (by simp [MuxesReach, toTop]) (by simp) nofun
      (fun _ hne => absurd haddr hne)
  exact exec_toTop rfl hpass ((operate_ioRead _ s).trans (ioRead_of_byte haddr hinq))

/-- `io!` writes `N` to the I/O address `T` and pops both (R193). -/
theorem exec_io_store (htwo : 2 ≤ s.sp) (haddr : s.t = 0xF1) :
    exec (decode 0x6302) s = .next ((s.dPop.dPop.ioWrite s.t s.nos).commit (s.eip + 1)) := by
  have hpass : aluFault .passIn ⟨false, .n, .ioT, .zero, .minus2⟩ s = none :=
    aluFault_eq_none_of_reach (by simp [DeltasFit, htwo]) (by simp [MuxesReach, haddr, Nat.one_le_of_lt htwo]) (by simp)
      nofun nofun
  exact exec_ofAlu_value (op := .passIn) hpass rfl

end

/-- Settles O46: each word is the operations of its own lemma, and what those leave in the stacks, memory and streams. -/
theorem returnAndMemoryWordsHaveTheirStackEffects : Obligations.ReturnAndMemoryWordsHaveTheirStackEffects := by
  intro s xs ys hinv
  refine ⟨fun a h hroom => leaves_to_r hinv h hroom,
    fun a h hroom => ⟨leaves_r_from hinv h hroom, leaves_r_fetch hinv h hroom⟩, fun a h => ?exit,
    fun a h haddr => leaves_fetch h haddr, fun x a h haddr => ?store, fun b rest h hinq => ?ioFetch, fun x h => ?ioStore⟩
  case exit =>
    obtain ⟨hsome, rfl⟩ := top_of_rstack h
    exact ⟨_, exec_exit hsome, rfl, rstack_rPop hinv h, rfl⟩
  case store =>
    obtain ⟨htwo, rfl, rfl⟩ := operands_of_two hinv h
    exact ⟨_, exec_store htwo haddr, dstack_dPop_dPop hinv h, rfl, readCell_writeCell_self ..⟩
  case ioFetch =>
    obtain ⟨-, htop⟩ := top_of_dstack h
    exact ⟨_, exec_io_fetch htop hinq, dstack_setTop h _, rfl, rfl⟩
  case ioStore =>
    obtain ⟨htwo, rfl, htop⟩ := operands_of_two hinv h
    refine ⟨_, exec_io_store htwo htop, dstack_dPop_dPop hinv h, rfl, ?_⟩
    rw [State.commit_outq, htop, State.ioWrite, append_ioOutBytes, if_pos rfl]
    rfl

end Sys2Proof.Proofs
end

section
/-! PROOF. The dictionary of the standard words (44_words.md R211, R212), built from their texts (30_encoding.md R73): the
single-instruction words first, and the composites spliced from those. -/

namespace Sys2Proof.Proofs

open Sys2Proof.Machine

/-- A list of definitions that builds hands its dictionary on to the definitions after it (R73). -/
theorem buildDictionary_append {dict dict' : Dictionary} {defs : List (String × String)} (rest : List (String × String))
    (h : buildDictionary dict defs = .ok dict') : buildDictionary dict (defs ++ rest) = buildDictionary dict' rest := by
  induction defs generalizing dict with
  | nil =>
    cases h
    rfl
  | cons d defs ih =>
    obtain ⟨name, text⟩ := d
    cases hd : assemble dict 0 (tokensOf text) with
    | error e => simp only [buildDictionary, hd, reduceCtorEq] at h
    | ok xs =>
      simp only [List.cons_append, buildDictionary, hd] at h ⊢
      exact ih h

/-- The single-instruction words as R211 prints them. -/
def printedPrimitives : Dictionary :=
  [ ("noop", [0x6400]), ("dup", [0x6401]), ("drop", [0x6003]), ("swap", [0x6010]), ("over", [0x6001]), ("nip", [0x6403]),
    ("+", [0x6433]), ("over+", [0x6430]), ("and", [0x6443]), ("or", [0x6453]), ("xor", [0x6463]), ("*", [0x6473]),
    ("invert", [0x6480]), ("=", [0x6493]), ("<", [0x64A3]), ("u<", [0x64B3]), ("rshift", [0x60C3]), ("lshift", [0x60D3]),
    ("@", [0x6800]), ("!", [0x6202]), (">r", [0x6507]), ("r>", [0x6C0D]), ("r@", [0x6C01]), ("exit", [0x740C]),
    ("io@", [0x64F0]), ("io!", [0x6302]), ("1+", [0xC001]) ]

theorem buildDictionary_primitives : buildDictionary [] primitiveDefinitions = .ok printedPrimitives := by decide

/-- Settles O47: the composites are resolved against the words of `buildDictionary_primitives`. -/
theorem dictionaryHoldsThePrintedWords : Obligations.DictionaryHoldsThePrintedWords := by
  rw [Obligations.DictionaryHoldsThePrintedWords, stdDictionary, buildDictionary_append _ buildDictionary_primitives]
  decide

end Sys2Proof.Proofs
end

section
/-! PROOF. Faults are precise (60_exceptions.md R236): an instruction that has a next state either commits and counts a cycle, or
halts or faults and writes `STATUS` alone. -/

namespace Sys2Proof.Proofs

open Sys2Proof.Machine Sys2Proof.Claim

/-- An ALU instruction that commits counts one cycle and leaves `STATUS`: its operation touches neither, and phase 7 counts. -/
theorem aluFinish_counts {op : AluOp} {x : Sampled} {s s1 : State} {out : StackCell} (f : AluFields)
    (hop : operate op x s = .value out s1) :
    (aluFinish f out s s1).status = s.status ∧ (aluFinish f out s s1).cycles = s.cycles + 1 := by
  obtain ⟨-, -, -, -, -, -, hcycles, -, -, -, hstatus, -, -⟩ := operate_value hop
  exact ⟨by rw [aluFinish_status, hstatus], by rw [aluFinish_cycles, hcycles]⟩

/-- Every next state of an instruction is a commit, the halt of HALT, or a fault that has had no other effect (R110, R236). -/
theorem exec_commits_halts_or_faults {i : Instr} {s t : State} (hnext : exec i s = .next t) :
    (t.status = s.status ∧ t.cycles = s.cycles + 1) ∨ (i = .halt ∧ t = { s with status := .halted }) ∨
    ∃ k, t = faultedWith s k := by
  rcases exec_next hnext with hfault | hhalt | ⟨a, -, rfl⟩ | ⟨a, -, -, rfl⟩ | ⟨a, -, -, rfl⟩ |
    ⟨m, k, -, -, rfl⟩ | ⟨m, k, -, rfl⟩ | ⟨op, f, out, s1, -, -, hop, rfl⟩
  case inl => exact .inr (.inr hfault)
  case inr.inl => exact .inr (.inl hhalt)
  case inr.inr.inr.inr.inr.inr.inr => exact .inl (aluFinish_counts f hop)
  all_goals exact .inl ⟨rfl, rfl⟩

/-- Only the zero cell decodes to HALT (R68). -/
theorem eq_zero_of_decode_halt {w : MemCell} (hhalt : decode w = .halt) : w = 0 :=
  Decidable.byContradiction fun hw => decode_ne_halt hw hhalt

/-- Settles O11: the fetch fault is a fault, and the fetched instruction commits, halts (then its cell is zero) or faults. -/
theorem stepCommitsHaltsOrFaults : Obligations.StepCommitsHaltsOrFaults := by
  intro s t hrun hstep
  obtain ⟨-, ⟨-, hfetch⟩ | ⟨heip, hexec⟩⟩ := step_next hstep
  · exact .inr (.inr ⟨_, hfetch⟩)
  · rcases exec_commits_halts_or_faults hexec with ⟨hstatus, hcycles⟩ | ⟨hhalt, ht⟩ | hfault
    · exact .inl ⟨hstatus.trans hrun, hcycles⟩
    · exact .inr (.inl ⟨eq_zero_of_decode_halt hhalt, heip, ht⟩)
    · exact .inr (.inr hfault)

end Sys2Proof.Proofs
end

section
/-! PROOF. The step relation and the run (70_reset_and_hazards.md R260 to R265): what a run with host actions keeps, when a running
core has a next state, that an ended one has none, and the first step from reset. -/

namespace Sys2Proof.Proofs

open Sys2Proof.Machine Sys2Proof.Claim

/-! ## Runs -/

/-- The host's actions are possible on an open running core alone, and write the two elements of the input side alone (R265). -/
theorem hostAppend_eq_some {s t : State} {bytes : List Byte} (h : s.hostAppend bytes = some t) :
    s.status = .running ∧ s.inClosed = false ∧ t = { s with inq := s.inq ++ bytes } := by
  obtain ⟨⟨hrun, hopen⟩, ht⟩ := Option.ite_none_right_eq_some.mp h
  exact ⟨hrun, hopen, (Option.some.inj ht).symm⟩

theorem hostClose_eq_some {s t : State} (h : s.hostClose = some t) :
    s.status = .running ∧ s.inClosed = false ∧ t = { s with inClosed := true } := by
  obtain ⟨⟨hrun, hopen⟩, ht⟩ := Option.ite_none_right_eq_some.mp h
  exact ⟨hrun, hopen, (Option.some.inj ht).symm⟩

theorem hostAppend_inv {s t : State} {bytes : List Byte} (h : Inv s) (happend : s.hostAppend bytes = some t) : Inv t := by
  obtain ⟨-, -, rfl⟩ := hostAppend_eq_some happend
  exact inv_of_same_bounds h rfl rfl rfl rfl rfl rfl

theorem hostClose_inv {s t : State} (h : Inv s) (hclose : s.hostClose = some t) : Inv t := by
  obtain ⟨-, -, rfl⟩ := hostClose_eq_some hclose
  exact inv_of_same_bounds h rfl rfl rfl rfl rfl rfl

/-- What the steps of the core and the two actions of the host keep, every run keeps. -/
theorem reaches_keeps {P : State → Prop} (hstep : ∀ {s t : State}, P s → step s = .next t → P t)
    (happend : ∀ {s t : State} {bytes : List Byte}, P s → s.hostAppend bytes = some t → P t)
    (hclose : ∀ {s t : State}, P s → s.hostClose = some t → P t) {s t : State} (h : P s) (hreach : Reaches s t) :
    P t := by
  induction hreach with
  | refl => exact h
  | step _ hnext ih => exact hstep ih hnext
  | append _ _ hnext ih => exact happend ih hnext
  | close _ hnext ih => exact hclose ih hnext

/-- Settles O17: steps keep the bounds (`step_inv`), and the host's actions touch nothing that they speak of. -/
theorem runsKeepTheInvariant : Obligations.RunsKeepTheInvariant :=
  fun _ _ => reaches_keeps step_inv hostAppend_inv hostClose_inv

/-! ## Progress -/

/-- Every instruction has a next state, but for the byte read that waits on an empty open stream (R192). -/
theorem exec_next_or_held (i : Instr) (s : State) :
    (∃ t, exec i s = .next t) ∨
    (∃ f, i = .aluIoRead f ∧ inOf f s = 0xE0) ∧ s.inq = [] ∧ s.inClosed = false ∧ exec i s = .fault .heldForInput := by
  rcases instr_cases i with rfl | ⟨a, rfl⟩ | ⟨a, rfl⟩ | ⟨a, rfl⟩ | ⟨m, k, rfl⟩ | ⟨m, k, rfl⟩ | ⟨op, f, rfl⟩
  · exact .inl ⟨_, exec_halt s⟩
  · exact .inl ⟨_, exec_jmp a s⟩
  · rcases Nat.eq_zero_or_pos s.sp with hempty | hsome
    · exact .inl ⟨_, exec_zeroBranch_of_empty a hempty⟩
    · exact .inl ⟨_, exec_zeroBranch_of_some a hsome⟩
  · rcases Nat.lt_or_ge s.rsp s.cfg.rcap with hroom | hfull
    · exact .inl ⟨_, exec_call_of_room a hroom⟩
    · exact .inl ⟨_, exec_call_of_full a hfull⟩
  · rcases Nat.lt_or_ge s.sp s.cfg.dcap with hroom | hfull
    · exact .inl ⟨_, exec_litPush_of_room m k hroom⟩
    · exact .inl ⟨_, exec_litPush_of_full m k hfull⟩
  · exact .inl ⟨_, exec_litAdd m k s⟩
  · rcases exec_alu_cases op f s with ⟨k, -, hexec⟩ | ⟨-, ⟨rfl, hin, hempty, hopen⟩, hexec⟩ | ⟨-, -, out, s1, -, hexec⟩
    · exact .inl ⟨_, hexec⟩
    · exact .inr ⟨⟨f, rfl, hin⟩, hempty, hopen, hexec⟩
    · exact .inl ⟨_, hexec⟩

/-- Settles O10: a fetch beyond memory faults, which is a next state, and the fetched instruction is `exec_next_or_held`. -/
theorem runningCoreStepsUnlessHeld : Obligations.RunningCoreStepsUnlessHeld := by
  intro s hrun
  rcases step_of_running hrun with ⟨-, hstep⟩ | ⟨-, hstep⟩
  · exact .inl ⟨_, hstep⟩
  · rw [hstep]
    rcases exec_next_or_held (decode (s.mem.readCell s.eip.toNat)) s with hnext | ⟨hread, hempty, hopen, hheld⟩
    · exact .inl hnext
    · exact .inr ⟨hheld, hempty, hopen, hread⟩

/-! ## The fetched instruction -/

/-- The two image bytes of a cell decode to what the cell decodes to (R46). -/
theorem decodeBytes_cell (m : Memory) (k : Nat) :
    decodeBytes [m.readByte (2 * k), m.readByte (2 * k + 1)] = .ok (decode (m.readCell k), []) := rfl

/-- Settles O7: the bytes at `EIP` are the cell the step fetches, so what they decode to is what it runs. -/
theorem stepRunsTheDecodedInstruction : Obligations.StepRunsTheDecodedInstruction := by
  intro s i hrun heip hbytes _
  rw [decodeBytes_cell] at hbytes
  obtain ⟨hdecode, -⟩ := Prod.mk.inj (Except.ok.inj hbytes)
  rw [step_in_memory hrun heip, hdecode]

/-! ## The two ends of a run -/

/-- A run whose first step has no next state has none. -/
theorem run_succ_ne_next {M : Host.Core} {s : M.State} (hstep : ∀ t, M.step s ≠ .next t) (k : Nat) (t : M.State) :
    M.run (k + 1) s ≠ .next t := by
  intro hrun
  unfold Host.Core.run at hrun
  split at hrun
  case h_1 u hnext => exact hstep u hnext
  case h_2 => cases hrun
  case h_3 => cases hrun

/-- Settles O9: only a running core has a next state (`step_next`), and a longer run begins with a step. -/
theorem noStepAfterTheEnd : Obligations.NoStepAfterTheEnd := by
  intro s hended
  refine run_succ_ne_next (M := core) fun t hstep => ?_
  obtain ⟨hrun, -⟩ := step_next hstep
  exact hended hrun

/-- Settles O20: reset runs at cell 0 of an empty memory, which reads as the halt sentinel (`haltChangesStatusAlone`). -/
theorem emptyImageHaltsAtOnce : Obligations.EmptyImageHaltsAtOnce := by
  obtain ⟨-, hzero⟩ := haltChangesStatusAlone
  exact hzero State.reset rfl (by decide) rfl

end Sys2Proof.Proofs
end
